-- ==== Sys2Proof/Word.lean ====
section
/-! DEFINITION. The word types of the core and the one narrowing of an exact number to a byte.
Every byte of memory, register, opcode and operand is 8 bits wide (00_scope.md R5); the program counter is 9 bits wide (R10). -/

namespace Sys2Proof

/-- A memory byte, a register's contents, an opcode or an operand (00_scope.md R5). -/
abbrev Byte := BitVec 8

/-- The program counter's width (00_scope.md R10): 9 bits, of which the values 0 to 256 are reachable. -/
abbrev PcWord := BitVec 9

/-- The index of a register, 0 to 7 (00_scope.md R7). -/
abbrev Reg := Fin 8

/-- `n mod 256` as a byte: how an exact natural result is reduced (00_scope.md R15, 10_state.md R22). -/
def narrow (n : Nat) : Byte := BitVec.ofNat 8 n

end Sys2Proof
end

