-- ==== Sys2Proof/Config.lean ====
section
/-! DEFINITION. The parameters 00_scope.md section 4 fixes for this hardware. No value is left free by the spec
(93_implementation_defined.md), so nothing here is opaque. -/

namespace Sys2Proof

/-- `MEM_SIZE`: 256 bytes, addresses 0 to 255 (00_scope.md R6). -/
def Config.memSize : Nat := 256

/-- `SP_INDEX`: register 7 is the stack pointer (00_scope.md R8). -/
def Config.spIndex : Reg := 7

/-- `SP_RESET`: the stack pointer's reset value (00_scope.md R9).
UNVERIFIED (log 1): the spec takes the source's reference value as its own choice. -/
def Config.spReset : Byte := 0xF4#8

/-- What a memory byte holds after reset (20_memory.md R43). -/
def Config.memReset : Byte := 0x00#8

/-- The bytes of the longest instruction (00_scope.md R12). -/
def Config.maxWidth : Nat := 3

end Sys2Proof
end

