-- ==== Sys2Proof/Machine/State.lean ====
section
/-! DEFINITION. The state of the core, all of it plain data: the register file, the program counter, the flag register,
memory, the output sequence, the run-state and the fault record (10_state.md, 20_memory.md R42), the reasons a step can
stop, and the state after reset (70_reset_and_hazards.md R122). -/

namespace Sys2Proof.Machine

/-- Memory as the list of the bytes that differ from their reset value, addresses strictly rising (the form
`Memory.wf` of Ops.lean says so); an unlisted address holds the reset value 0x00 (20_memory.md R43). -/
abbrev Memory := List Host.Cell

/-- The run-state (10_state.md R34). -/
inductive RunState where
  /-- After reset, before start. -/
  | idle
  /-- Instructions execute, one per step. -/
  | running
  /-- HLT has executed. -/
  | halted
  /-- A fault stopped execution. -/
  | faulted
deriving DecidableEq, Repr

/-- The four kinds of fault of 60_exceptions.md R106. -/
inductive FaultKind where
  /-- Code 1 (R107). -/
  | unknownOpcode
  /-- Code 2 (R108). -/
  | registerIndexOutOfRange
  /-- Code 3 (R109). -/
  | addressOutOfRange
  /-- Code 4 (R110): raised by no rule. -/
  | aluInternalError
deriving DecidableEq, Repr

/-- The fault record of 10_state.md R37. Its `code` is `FaultKind.code` of its kind (log 23). -/
structure FaultRecord where
  /-- The kind of fault. -/
  kind : FaultKind
  /-- The value of `pc` at the faulting step. -/
  fpc : PcWord
  /-- The fetched opcode byte, or none if the fetch itself faulted. -/
  opcode : Option Byte
  /-- The offending opcode, register index or address. -/
  value : Nat
deriving DecidableEq, Repr

/-- Everything the spec gives the machine between two steps. -/
structure State where
  /-- `x[0]` to `x[7]` (10_state.md R20). -/
  regs : Vector Byte 8
  /-- The program counter (10_state.md R25). -/
  pc : PcWord
  /-- The condition-flag register, `0b00000LGE` (10_state.md R29). -/
  fl : Byte
  /-- `M[0..255]` (20_memory.md R42). -/
  mem : Memory
  /-- The values PRN has emitted since reset, in order (10_state.md R39). -/
  out : List Byte
  /-- The run-state (10_state.md R34). -/
  runState : RunState
  /-- The fault record, none until a fault (10_state.md R37). -/
  faultRec : Option FaultRecord
deriving DecidableEq, Repr

/-- Why no step is taken. None of these is a fault of the spec: the spec's faults are states (`State.raise`), and each reason here
is a run-state in which the core takes no step (40_execution_cycle.md R74). -/
inductive Fault where
  /-- Raised by `step` in Idle: the host has not started the core. Safe: the model stops where the core waits (log 21). -/
  | idle
  /-- Raised by `step` in Halted: the run is over (R82). Safe (log 21). -/
  | halted
  /-- Raised by `step` in Faulted: the run is over (R82). Safe (log 21). -/
  | faulted
deriving DecidableEq, Repr

/-- What the model gives no meaning to. No instruction's meaning ends here. -/
inductive Refusal where
  /-- An instruction without a meaning in `exec`. Raised by no arm. Safe. -/
  | notModelled (mnemonic : String)
  /-- The defect "Unsupported ALU operation" (40_execution_cycle.md R86, 60_exceptions.md R110). Raised by nothing, since
  the dispatch table names only ADD, MUL and CMP. Safe (log 29). -/
  | aluInternalError
  /-- Raised by the host's load when the core is not Idle (70_reset_and_hazards.md R125). Safe. -/
  | loadWhileNotIdle
  /-- Raised by the host's load of more than 256 bytes (70_reset_and_hazards.md R126). Safe. -/
  | loadTooLong
deriving DecidableEq, Repr

/-- The result of a step or of a meaning. -/
abbrev StepOutcome := Host.Outcome State Fault Refusal

/-- The machine right after reset (70_reset_and_hazards.md R122). -/
def State.reset : State where
  regs := (Vector.replicate 8 0x00#8).set 7 Config.spReset
  pc := 0
  fl := 0x00#8
  mem := []
  out := []
  runState := .idle
  faultRec := none

end Sys2Proof.Machine
end

