-- ==== Sys2Proof/Machine/Flags.lean ====
section
/-! DEFINITION. The condition flags: where E, G and L lie in `fl` (10_state.md R29) and what a comparison writes (41_alu.md R91).
No other instruction computes a flag (10_state.md R31). -/

namespace Sys2Proof.Machine

/-- E (Equal), bit 0. UNVERIFIED (log 3): the bit of each flag is the spec's reading. -/
def flagE (fl : Byte) : Bool := fl.getLsbD 0

/-- G (Greater), bit 1 (log 3). -/
def flagG (fl : Byte) : Bool := fl.getLsbD 1

/-- L (Less), bit 2 (log 3). -/
def flagL (fl : Byte) : Bool := fl.getLsbD 2

/-- The whole byte CMP writes, from an unsigned comparison in the order Equal, Greater, Less (41_alu.md R91).
UNVERIFIED (log 4): that bits 7:3 are cleared is the spec's choice. -/
def compareFlags (p q : Byte) : Byte :=
  if p.toNat = q.toNat then 0b00000001#8
  else if p.toNat > q.toNat then 0b00000010#8
  else 0b00000100#8

end Sys2Proof.Machine
end

