-- ==== Sys2Proof/Syntax.lean ====
section
/-! DEFINITION. The instructions as syntax: one constructor of `Instr` per row of the dispatch table (30_encoding.md R67).
A constructor carries the operand bytes `a` and `b` as they were fetched (30_encoding.md R62); with the opcode byte its
constructor stands for they are the latches of the step (10_state.md R38). -/

namespace Sys2Proof

/-- The four formats of 30_encoding.md R63: no operand, a register, two registers, a register and an immediate. -/
inductive Format where
  | Z
  | R
  | RR
  | RI
deriving DecidableEq, Repr

/-- The fourteen entries of the dispatch table, in the source's order (30_encoding.md R67). -/
inductive Mnemonic where
  | ldi
  | prn
  | add
  | mul
  | cmp
  | st
  | push
  | pop
  | call
  | ret
  | jmp
  | jeq
  | jne
  | hlt
deriving DecidableEq, Repr

/-- An instruction with its operand bytes. A register operand is the whole byte (30_encoding.md R64), so an index of
8 to 255 can be written here; `Instr.wf` refuses it and the operand check of the step faults on it (40_execution_cycle.md R78). -/
inductive Instr where
  /-- LDI: `a` the destination register, `b` the immediate (42_data_movement.md R93). -/
  | ldi (a b : Byte)
  /-- PRN: `a` the register emitted (42_data_movement.md R95). -/
  | prn (a : Byte)
  /-- ADD: `a` destination and first source, `b` second source (41_alu.md R89). -/
  | add (a b : Byte)
  /-- MUL: `a` destination and first source, `b` second source (41_alu.md R90). -/
  | mul (a b : Byte)
  /-- CMP: `a` and `b` the registers compared (41_alu.md R91). -/
  | cmp (a b : Byte)
  /-- ST: `a` the register with the address, `b` the register with the value (42_data_movement.md R94). -/
  | st (a b : Byte)
  /-- PUSH: `a` the register pushed (43_stack.md R96). -/
  | push (a : Byte)
  /-- POP: `a` the destination register (43_stack.md R97). -/
  | pop (a : Byte)
  /-- CALL: `a` the register with the target (44_control_transfer.md R99). -/
  | call (a : Byte)
  /-- RET (44_control_transfer.md R100). -/
  | ret
  /-- JMP: `a` the register with the target (44_control_transfer.md R101). -/
  | jmp (a : Byte)
  /-- JEQ: `a` the register with the target (44_control_transfer.md R102). -/
  | jeq (a : Byte)
  /-- JNE: `a` the register with the target (44_control_transfer.md R103). -/
  | jne (a : Byte)
  /-- HLT (44_control_transfer.md R104). -/
  | hlt
deriving DecidableEq, Repr

/-- The dispatch-table entry an instruction belongs to. -/
def Instr.mnemonic : Instr → Mnemonic
  | .ldi _ _ => .ldi
  | .prn _ => .prn
  | .add _ _ => .add
  | .mul _ _ => .mul
  | .cmp _ _ => .cmp
  | .st _ _ => .st
  | .push _ => .push
  | .pop _ => .pop
  | .call _ => .call
  | .ret => .ret
  | .jmp _ => .jmp
  | .jeq _ => .jeq
  | .jne _ => .jne
  | .hlt => .hlt

/-- The operand byte that names register `r`. -/
def regByte (r : Reg) : Byte := BitVec.ofNat 8 r.val

end Sys2Proof
end

