-- ==== Sys2Proof/Decode.lean ====
section
/-! DEFINITION. The opcode map and format of each instruction, the decoder (total on any bytes, rejecting by name) and the
encoder. The decoder learns the width from the opcode byte alone and then takes exactly the operand bytes the
instruction has (30_encoding.md R70, 40_execution_cycle.md R76, R77). -/

namespace Sys2Proof

/-- The opcode column of 30_encoding.md R67.
PRESUMED (log 31): the source's binary literals are read most significant bit first. -/
def Mnemonic.opcode : Mnemonic → Byte
  | .ldi => 0b10000010#8
  | .prn => 0b01000111#8
  | .add => 0b10100000#8
  | .mul => 0b10100010#8
  | .cmp => 0b10100111#8
  | .st => 0b10000100#8
  | .push => 0b01000101#8
  | .pop => 0b01000110#8
  | .call => 0b01010000#8
  | .ret => 0b00010001#8
  | .jmp => 0b01010100#8
  | .jeq => 0b01010101#8
  | .jne => 0b01010110#8
  | .hlt => 0b00000001#8

/-- The format column of 30_encoding.md R67. -/
def Mnemonic.format : Mnemonic → Format
  | .ldi => .RI
  | .prn => .R
  | .add => .RR
  | .mul => .RR
  | .cmp => .RR
  | .st => .RR
  | .push => .R
  | .pop => .R
  | .call => .R
  | .ret => .Z
  | .jmp => .R
  | .jeq => .R
  | .jne => .R
  | .hlt => .Z

/-- The width of a format in bytes (30_encoding.md R63). -/
def Format.width : Format → Nat
  | .Z => 1
  | .R => 2
  | .RR => 3
  | .RI => 3

/-- `w`, the width in bytes of an instruction: one opcode byte and its operands (30_encoding.md R62). -/
def Mnemonic.width (m : Mnemonic) : Nat := m.format.width

/-- The entries of the dispatch table in the source's order (30_encoding.md R67). -/
def allMnemonics : List Mnemonic :=
  [.ldi, .prn, .add, .mul, .cmp, .st, .push, .pop, .call, .ret, .jmp, .jeq, .jne, .hlt]

/-- The dispatch table (30_encoding.md R66): the whole opcode byte, mask 0xFF, selects an entry or none (R68). -/
def dispatch (ir : Byte) : Option Mnemonic := allMnemonics.find? (fun m => m.opcode == ir)

/-- Why a list of bytes is no instruction. -/
inductive DecodeError where
  /-- There is no opcode byte. -/
  | noOpcode
  /-- The opcode byte is unassigned (30_encoding.md R68); no operand byte was looked at. -/
  | unknownOpcode (ir : Byte)
  /-- Operand byte number `k` (1 or 2) of the assigned opcode `ir` is missing (40_execution_cycle.md R77). -/
  | missingOperand (ir : Byte) (k : Nat)
deriving DecidableEq, Repr

/-- Takes the one operand byte of a format `R` instruction. -/
def takeOne (m : Mnemonic) (build : Byte → Instr) : List Byte → Except DecodeError (Instr × List Byte)
  | [] => .error (.missingOperand m.opcode 1)
  | a :: rest => .ok (build a, rest)

/-- Takes the two operand bytes of a format `RR` or `RI` instruction, `a` first. -/
def takeTwo (m : Mnemonic) (build : Byte → Byte → Instr) : List Byte → Except DecodeError (Instr × List Byte)
  | [] => .error (.missingOperand m.opcode 1)
  | [_] => .error (.missingOperand m.opcode 2)
  | a :: b :: rest => .ok (build a b, rest)

/-- Takes the operand bytes of the entry `m` (30_encoding.md R63) and gives the instruction and the bytes after it. -/
def decodeOperands (m : Mnemonic) (bytes : List Byte) : Except DecodeError (Instr × List Byte) :=
  match m with
  | .ldi => takeTwo .ldi .ldi bytes
  | .prn => takeOne .prn .prn bytes
  | .add => takeTwo .add .add bytes
  | .mul => takeTwo .mul .mul bytes
  | .cmp => takeTwo .cmp .cmp bytes
  | .st => takeTwo .st .st bytes
  | .push => takeOne .push .push bytes
  | .pop => takeOne .pop .pop bytes
  | .call => takeOne .call .call bytes
  | .ret => .ok (.ret, bytes)
  | .jmp => takeOne .jmp .jmp bytes
  | .jeq => takeOne .jeq .jeq bytes
  | .jne => takeOne .jne .jne bytes
  | .hlt => .ok (.hlt, bytes)

/-- The decoder: the instruction at the head of the bytes and the bytes it did not look at, or a named rejection
(40_execution_cycle.md R76, R77). Register indices are not checked here; that is the step's next stage (R78). -/
def decode : List Byte → Except DecodeError (Instr × List Byte)
  | [] => .error .noOpcode
  | ir :: rest =>
    match dispatch ir with
    | none => .error (.unknownOpcode ir)
    | some m => decodeOperands m rest

/-- The operand bytes of an instruction, `a` first (30_encoding.md R72). -/
def Instr.operands : Instr → List Byte
  | .ldi a b => [a, b]
  | .prn a => [a]
  | .add a b => [a, b]
  | .mul a b => [a, b]
  | .cmp a b => [a, b]
  | .st a b => [a, b]
  | .push a => [a]
  | .pop a => [a]
  | .call a => [a]
  | .ret => []
  | .jmp a => [a]
  | .jeq a => [a]
  | .jne a => [a]
  | .hlt => []

/-- The encoder: the opcode byte, then the operand bytes at ascending addresses (30_encoding.md R62, R72). -/
def encode (i : Instr) : List Byte := i.mnemonic.opcode :: i.operands

/-- The first `n` bytes of a number whose byte 0 is its least significant byte. -/
def bytesOf : Nat → Nat → List Byte
  | 0, _ => []
  | n + 1, w => BitVec.ofNat 8 w :: bytesOf n (w / 256)

/-- The bytes of a table word: the low `nbits` bits of `w`, byte 0 first, every bit above them zero, up to the longest
instruction. -/
def tableWordBytes (nbits w : Nat) : List Byte := bytesOf Config.maxWidth (w % 2 ^ nbits)

/-- The instruction the decoder reads from a word numbered as spec/opcode_table.json numbers it. -/
def decodeTableWord (nbits w : Nat) : Option Instr :=
  match decode (tableWordBytes nbits w) with
  | .ok (i, _) => some i
  | .error _ => none

end Sys2Proof
end

