-- ==== Sys2Proof/Machine/Ops.lean ====
section
/-! DEFINITION. The named operations over memory, registers, the stack pointer, the output and the run-state, the primitives of
00_scope.md R16, and raising a fault as one shared operation. -/

namespace Sys2Proof.Machine

/-! ### Memory -/

/-- The canonical form: addresses strictly rising and below 256, no listed byte equal to what an unlisted address reads as. -/
def Memory.wf : Memory → Bool
  | [] => true
  | [(a, v)] => decide (a < Config.memSize) && v != Config.memReset
  | (a, v) :: (b, w) :: rest => decide (a < b) && v != Config.memReset && Memory.wf ((b, w) :: rest)

/-- The byte at address `n`: the listed one, or the reset value (20_memory.md R43, R44). -/
def Memory.read : Memory → Nat → Byte
  | [], _ => Config.memReset
  | (a, v) :: rest, n => if a = n then v else Memory.read rest n

/-- Puts a cell in front of a memory, unless it holds what an unlisted address reads as. -/
def Memory.cons (n : Nat) (v : Byte) (m : Memory) : Memory := if v = Config.memReset then m else (n, v) :: m

/-- Stores `v` at address `n` and keeps the canonical form (20_memory.md R45). -/
def Memory.write : Memory → Nat → Byte → Memory
  | [], n, v => Memory.cons n v []
  | (a, w) :: rest, n, v =>
    if n < a then Memory.cons n v ((a, w) :: rest)
    else if n = a then Memory.cons n v rest
    else (a, w) :: Memory.write rest n v

/-- Stores the bytes at `n`, `n + 1`, ... that lie inside the address space. -/
def Memory.writeBytes : Memory → Nat → List Byte → Memory
  | m, _, [] => m
  | m, n, v :: rest =>
    if n < Config.memSize then Memory.writeBytes (m.write n v) (n + 1) rest else m

/-- `MemRead(addr, 1)` for a data access, whose address is a byte and so always in range (20_memory.md R44, R47). -/
def State.memRead (s : State) (addr : Byte) : Byte := s.mem.read addr.toNat

/-- `MemWrite(addr, 1, v)` for a data access (20_memory.md R45, R47). -/
def State.memWrite (s : State) (addr v : Byte) : State := { s with mem := s.mem.write addr.toNat v }

/-- A byte the fetch may read: none outside 0 to 255 (20_memory.md R48). -/
def State.byteAt? (s : State) (n : Nat) : Option Byte := if n < Config.memSize then some (s.mem.read n) else none

/-! ### Registers -/

/-- `x[r]` (00_scope.md R16). -/
def State.readReg (s : State) (r : Reg) : Byte := s.regs[r]

/-- `x[r] <- v` (00_scope.md R16); a byte is already reduced mod 256 (10_state.md R22). Every register, R7 included, holds
what is written (10_state.md R23). -/
def State.writeReg (s : State) (r : Reg) (v : Byte) : State := { s with regs := s.regs.set r v }

/-- `sp`, another name for `x[7]` (00_scope.md R16). -/
def State.sp (s : State) : Byte := s.readReg Config.spIndex

/-- `sp <- (sp - 1) mod 256` (20_memory.md R60, R61). UNVERIFIED (log 5): the wrap is the spec's choice. -/
def State.decSp (s : State) : State := s.writeReg Config.spIndex (narrow (s.sp.toNat + 255))

/-- `sp <- (sp + 1) mod 256` (20_memory.md R60, R61). UNVERIFIED (log 5): the wrap is the spec's choice. -/
def State.incSp (s : State) : State := s.writeReg Config.spIndex (narrow (s.sp.toNat + 1))

/-! ### Program counter, output and run-state -/

/-- `pc <- pc + w` (10_state.md R26). In 9 bits 255 + 1 is 256, so no reachable advance wraps (10_state.md R25, log 26). -/
def State.advance (s : State) (w : Nat) : State := { s with pc := s.pc + BitVec.ofNat 9 w }

/-- `pc <- target` for a target byte (10_state.md R27). -/
def State.jump (s : State) (target : Byte) : State := { s with pc := target.setWidth 9 }

/-- `emit(v)`: the value joins `out` after every earlier one (10_state.md R39). -/
def State.emit (s : State) (v : Byte) : State := { s with out := s.out ++ [v] }

/-- `halt` (00_scope.md R16); `pc` stays (44_control_transfer.md R104). UNVERIFIED (log 11): that `pc` stays is the spec's choice. -/
def State.halt (s : State) : State := { s with runState := .halted }

/-! ### Faults -/

/-- The number of a kind (60_exceptions.md R106). UNVERIFIED (log 13): the numbers are the spec's own. -/
def FaultKind.code : FaultKind → Nat
  | .unknownOpcode => 1
  | .registerIndexOutOfRange => 2
  | .addressOutOfRange => 3
  | .aluInternalError => 4

/-- The field `code` of the record (10_state.md R37), a function of its kind (log 23). -/
def FaultRecord.code (r : FaultRecord) : Nat := r.kind.code

/-- `raise Fault(kind, info)`: taking a fault (00_scope.md R16, 40_execution_cycle.md R81, 60_exceptions.md R112). The run-state becomes
Faulted, the record is filled with `fpc = pc`, and nothing else is written; no handler is entered. There is no return from a
fault (60_exceptions.md R113): only the host's reset leaves Faulted. A fault is a next state, not a stop (log 20). -/
def State.raise (s : State) (kind : FaultKind) (opcode : Option Byte) (value : Nat) : State :=
  { s with
    runState := .faulted
    faultRec := some { kind := kind, fpc := s.pc, opcode := opcode, value := value } }

end Sys2Proof.Machine
end

