-- ==== Sys2Proof/Machine/Operands.lean ====
section
/-! DEFINITION. The operand check of the step (40_execution_cycle.md R78): the one operand form that needs one, a register index.
An immediate is used unchanged (30_encoding.md R65). -/

namespace Sys2Proof.Machine

/-- The register an operand byte selects: the whole byte is the index, with no masking (30_encoding.md R64).
UNVERIFIED (log 8): that 8 to 255 faults is the spec's choice. -/
def regIndex? (b : Byte) : Option Reg := if h : b.toNat < 8 then some ⟨b.toNat, h⟩ else none

/-- What a bad register operand raises (60_exceptions.md R108). -/
def State.badRegister (s : State) (m : Mnemonic) (b : Byte) : State :=
  s.raise .registerIndexOutOfRange (some m.opcode) b.toNat

/-- Checks operand `a` and runs the handler on its register; the check runs whether or not the handler uses the value. -/
def withReg (m : Mnemonic) (a : Byte) (s : State) (handler : Reg → StepOutcome) : StepOutcome :=
  match regIndex? a with
  | some r => handler r
  | none => .next (s.badRegister m a)

/-- Checks operand `a`, then operand `b`, and runs the handler on their registers (format `RR`). -/
def withRegs (m : Mnemonic) (a b : Byte) (s : State) (handler : Reg → Reg → StepOutcome) : StepOutcome :=
  withReg m a s fun ra => withReg m b s fun rb => handler ra rb

end Sys2Proof.Machine
end

