-- ==== Sys2Proof/Machine/Alu.lean ====
section
/-! DEFINITION. The ALU and its instructions ADD, MUL and CMP (41_alu.md). -/

namespace Sys2Proof.Machine

/-- `(p + q) mod 256`; no carry is kept (41_alu.md R88, R89). -/
def aluAdd (p q : Byte) : Byte := narrow (p.toNat + q.toNat)

/-- `(p * q) mod 256`; the high product is dropped (41_alu.md R88, R90). -/
def aluMul (p q : Byte) : Byte := narrow (p.toNat * q.toNat)

/-- ADD (41_alu.md R89). -/
def execAdd (a b : Byte) (s : State) : StepOutcome :=
  withRegs .add a b s fun ra rb =>
    .next ((s.writeReg ra (aluAdd (s.readReg ra) (s.readReg rb))).advance Mnemonic.add.width)

/-- MUL (41_alu.md R90). -/
def execMul (a b : Byte) (s : State) : StepOutcome :=
  withRegs .mul a b s fun ra rb =>
    .next ((s.writeReg ra (aluMul (s.readReg ra) (s.readReg rb))).advance Mnemonic.mul.width)

/-- CMP (41_alu.md R91): the whole of `fl` is written, no register is. -/
def execCmp (a b : Byte) (s : State) : StepOutcome :=
  withRegs .cmp a b s fun ra rb =>
    .next (State.advance { s with fl := compareFlags (s.readReg ra) (s.readReg rb) } Mnemonic.cmp.width)

end Sys2Proof.Machine
end

