-- ==== Sys2Proof/Machine/ControlTransfer.lean ====
section
/-! DEFINITION. The control-transfer instructions CALL, RET, JMP, JEQ and JNE, and HLT (44_control_transfer.md). -/

namespace Sys2Proof.Machine

/-- CALL (44_control_transfer.md R99). The return address is checked before any write (40_execution_cycle.md R80); UNVERIFIED
(log 9): that a return address of 256 faults is the spec's choice. The target is read after the push, so CALL R7 jumps to
the decremented `sp` (log 10). -/
def execCall (a : Byte) (s : State) : StepOutcome :=
  withReg .call a s fun ra =>
    if s.pc.toNat + 2 > 255 then
      .next (s.raise .addressOutOfRange (some Mnemonic.call.opcode) (s.pc.toNat + 2))
    else
      let t := s.decSp
      let u := t.memWrite t.sp (narrow (s.pc.toNat + 2))
      .next (u.jump (u.readReg ra))

/-- RET (44_control_transfer.md R100): any byte at `sp` is the new `pc`. -/
def execRet (s : State) : StepOutcome := .next (s.jump (s.memRead s.sp)).incSp

/-- JMP (44_control_transfer.md R101). -/
def execJmp (a : Byte) (s : State) : StepOutcome :=
  withReg .jmp a s fun ra => .next (s.jump (s.readReg ra))

/-- JEQ (44_control_transfer.md R102): `fl` is read, not cleared. -/
def execJeq (a : Byte) (s : State) : StepOutcome :=
  withReg .jeq a s fun ra =>
    .next (if flagE s.fl then s.jump (s.readReg ra) else s.advance Mnemonic.jeq.width)

/-- JNE (44_control_transfer.md R103). -/
def execJne (a : Byte) (s : State) : StepOutcome :=
  withReg .jne a s fun ra =>
    .next (if flagE s.fl then s.advance Mnemonic.jne.width else s.jump (s.readReg ra))

/-- HLT (44_control_transfer.md R104). -/
def execHlt (s : State) : StepOutcome := .next s.halt

end Sys2Proof.Machine
end

