-- ==== Sys2Proof/Machine/DataMovement.lean ====
section
/-! DEFINITION. The data movement and output instructions LDI, ST and PRN (42_data_movement.md). -/

namespace Sys2Proof.Machine

/-- LDI (42_data_movement.md R93): `b` is the immediate and is not checked. -/
def execLdi (a b : Byte) (s : State) : StepOutcome :=
  withReg .ldi a s fun ra => .next ((s.writeReg ra b).advance Mnemonic.ldi.width)

/-- ST (42_data_movement.md R94): the value of register `b` to the address in register `a`. -/
def execSt (a b : Byte) (s : State) : StepOutcome :=
  withRegs .st a b s fun ra rb =>
    .next ((s.memWrite (s.readReg ra) (s.readReg rb)).advance Mnemonic.st.width)

/-- PRN (42_data_movement.md R95): the raw byte joins `out`. UNVERIFIED (log 19): the host always accepts it. -/
def execPrn (a : Byte) (s : State) : StepOutcome :=
  withReg .prn a s fun ra => .next ((s.emit (s.readReg ra)).advance Mnemonic.prn.width)

end Sys2Proof.Machine
end

