-- ==== Sys2Proof/Machine/Stack.lean ====
section
/-! DEFINITION. The stack instructions PUSH and POP (43_stack.md). The statements run in the written order, each reading the
state the one before left (00_scope.md R17). UNVERIFIED (log 10): that order, which decides PUSH R7 and POP R7, is the spec's
choice. -/

namespace Sys2Proof.Machine

/-- PUSH (43_stack.md R96): decrement `sp`, then store the register at the new `sp`; PUSH R7 stores the decremented value. -/
def execPush (a : Byte) (s : State) : StepOutcome :=
  withReg .push a s fun ra =>
    let t := s.decSp
    .next ((t.memWrite t.sp (t.readReg ra)).advance Mnemonic.push.width)

/-- POP (43_stack.md R97): load the register from the byte at `sp`, then increment `sp`; POP R7 increments the popped byte. -/
def execPop (a : Byte) (s : State) : StepOutcome :=
  withReg .pop a s fun ra =>
    let t := s.writeReg ra (s.memRead s.sp)
    .next (t.incSp.advance Mnemonic.pop.width)

end Sys2Proof.Machine
end

