-- ==== Sys2Proof/Machine/Fetch.lean ====
section
/-! DEFINITION. The fetch, dispatch and operand-fetch stages of the step (40_execution_cycle.md R75 to R77): the bytes at `pc`
that lie in memory, and what each way of failing to decode them raises. -/

namespace Sys2Proof.Machine

/-- The bytes at `pc`, `pc + 1` and `pc + 2` that lie in the address space. The decoder takes from them the opcode and exactly
the operand bytes the instruction has; the others are never looked at (40_execution_cycle.md R77, log 7, log 25). -/
def State.window (s : State) : List Byte :=
  (List.range Config.maxWidth).filterMap (fun k => s.byteAt? (s.pc.toNat + k))

/-- What the fetch stages raise when the bytes at `pc` are no instruction (40_execution_cycle.md R83). -/
def State.fetchFault (s : State) : DecodeError → State
  | .noOpcode => s.raise .addressOutOfRange none s.pc.toNat
  | .unknownOpcode ir => s.raise .unknownOpcode (some ir) ir.toNat
  | .missingOperand ir k => s.raise .addressOutOfRange (some ir) (s.pc.toNat + k)

/-- The state with the bytes of a table word stored at `pc` and the run-state Running (log 24). -/
def State.placeAtPc (s : State) (bytes : List Byte) : State :=
  { s with mem := s.mem.writeBytes s.pc.toNat bytes, runState := .running }

end Sys2Proof.Machine
end

