-- ==== Sys2Proof/Machine/Step.lean ====
section
/-! DEFINITION. One step of the core (40_execution_cycle.md R74, R83), and the placing of one instruction where it is fetched next. -/

namespace Sys2Proof.Machine

/-- One step. While Running: fetch, dispatch and operand fetch (R75 to R77), then operand check and handler (R78, R79), each fault
a next state (R81). In any other run-state no step is taken (R74, R82): the outcome names the run-state (log 21). -/
def step (s : State) : Host.Outcome State Fault Refusal :=
  match s.runState with
  | .idle => .fault .idle
  | .halted => .fault .halted
  | .faulted => .fault .faulted
  | .running =>
    match decode s.window with
    | .ok (i, _) => exec i s
    | .error e => .next (s.fetchFault e)

/-- `s` with one instruction, numbered as spec/opcode_table.json numbers it, stored at `pc` and the core Running, so that the next
step fetches and runs it. It stands for the host's load and start (log 24); bytes past address 255 are dropped. -/
def State.withFetchWord (s : State) (nbits w : Nat) : State := s.placeAtPc (tableWordBytes nbits w)

end Sys2Proof.Machine
end

