-- ==== Sys2Proof/Machine/HostPort.lean ====
section
/-! DEFINITION. The core's boundary to its host (70_reset_and_hazards.md section 2): reset, program load, start, and the stop
status. Each action is one atomic event between two steps (log 30). The output port is the field `out` of the state. -/

namespace Sys2Proof.Machine

/-- What the host may do to the core between two steps. -/
inductive HostAction where
  /-- Reset, in any run-state (70_reset_and_hazards.md R124). -/
  | reset
  /-- Program load, in Idle only (R125). -/
  | load (program : List Byte)
  /-- Start (R127). -/
  | start
deriving DecidableEq, Repr

/-- Load: in Idle only, the bytes go to `M[0..n-1]` in order; a program of more than 256 bytes is refused
(70_reset_and_hazards.md R125, R126). -/
def State.load (program : List Byte) (s : State) : StepOutcome :=
  if s.runState ≠ .idle then .refused .loadWhileNotIdle
  else if program.length > Config.memSize then .refused .loadTooLong
  else .next { s with mem := s.mem.writeBytes 0 program }

/-- Start: Idle becomes Running; in any other run-state there is no effect (70_reset_and_hazards.md R127). -/
def State.start (s : State) : State := if s.runState = .idle then { s with runState := .running } else s

/-- The state after a host action. -/
def hostAct (h : HostAction) (s : State) : StepOutcome :=
  match h with
  | .reset => .next State.reset
  | .load program => s.load program
  | .start => .next s.start

/-- The stop status the host reads at any time: the run-state and, in Faulted, the fault record (70_reset_and_hazards.md R128). -/
def State.status (s : State) : RunState × Option FaultRecord :=
  (s.runState, if s.runState = .faulted then s.faultRec else none)

/-- What can happen next: a step of the core or an action of the host. -/
inductive Event where
  /-- The core takes one step. -/
  | step
  /-- The host acts between two steps. -/
  | host (h : HostAction)
deriving DecidableEq, Repr

/-- The outcome of one event. -/
def onEvent (e : Event) (s : State) : StepOutcome :=
  match e with
  | .step => step s
  | .host h => hostAct h s

end Sys2Proof.Machine
end

