-- ==== Sys2Proof/Safety.lean ====
section
/-! DEFINITION. What counts as a good state and a good end of a run: the invariant of the core's states, the reachable states,
and the three ways a run goes (40_execution_cycle.md R87). -/

namespace Sys2Proof.Machine

/-- A record that a fault at program counter `pc` can leave (60_exceptions.md R106 to R110): `fpc` is `pc`; an unknown opcode is
unassigned and is its own value; a bad register index is 8 to 255, of an assigned opcode; an address out of range is 256, and the
opcode is missing exactly when the fetch itself faulted. -/
def FaultRecord.sound (r : FaultRecord) (pc : PcWord) : Bool :=
  r.fpc == pc &&
  match r.kind, r.opcode with
  | .unknownOpcode, some ir => (dispatch ir).isNone && r.value == ir.toNat && decide (pc.toNat < 256)
  | .registerIndexOutOfRange, some ir =>
    (dispatch ir).isSome && decide (8 ≤ r.value) && decide (r.value < 256) && decide (pc.toNat < 256)
  | .addressOutOfRange, some ir => (dispatch ir).isSome && r.value == 256 && decide (pc.toNat < 256)
  | .addressOutOfRange, none => r.value == 256 && decide (pc.toNat = 256)
  | _, _ => false

/-- A fault record stands exactly in Faulted, and then it is sound (10_state.md R37). -/
def State.recordOk (s : State) : Bool :=
  match s.faultRec with
  | none => s.runState != .faulted
  | some r => s.runState == .faulted && r.sound s.pc

/-- The invariant of the core: memory in canonical form, `pc` at most 256 (10_state.md R25), `fl` one of the four reachable bytes
(10_state.md R33), and the record as `State.recordOk` says. -/
abbrev State.Inv (s : State) : Prop :=
  s.mem.wf = true ∧ s.pc.toNat ≤ 256 ∧
  (s.fl = 0x00#8 ∨ s.fl = 0x01#8 ∨ s.fl = 0x02#8 ∨ s.fl = 0x04#8) ∧ s.recordOk = true

/-- The states that reset, host actions and steps lead to. -/
inductive Reachable : State → Prop where
  /-- The state after reset. -/
  | reset : Reachable State.reset
  /-- The next state of an event. -/
  | event {s t : State} (e : Event) (before : Reachable s) (h : onEvent e s = .next t) : Reachable t

/-- `n` steps of the core with no host action between them, stopping at the first step that is not taken. -/
def runFor : Nat → State → StepOutcome
  | 0, s => .next s
  | n + 1, s =>
    match step s with
    | .next t => runFor n t
    | .fault r => .fault r
    | .refused r => .refused r

/-- `n` steps from `s` end in `t`. -/
def RunsTo (n : Nat) (s t : State) : Prop := runFor n s = .next t

/-- The run from `s` ends Halted, in `t` (40_execution_cycle.md R87): the success of a run. -/
def EndsHalted (s t : State) : Prop := ∃ n, RunsTo n s t ∧ t.runState = .halted

/-- The run from `s` ends Faulted, in `t` (40_execution_cycle.md R87). -/
def EndsFaulted (s t : State) : Prop := ∃ n, RunsTo n s t ∧ t.runState = .faulted

/-- The run from `s` never ends: a hang (40_execution_cycle.md R85, R87). -/
def Hangs (s : State) : Prop := ∀ n, ∃ t, RunsTo n s t ∧ t.runState = .running

end Sys2Proof.Machine
end

