-- ==== Sys2Proof/WellFormed.lean ====
section
/-! DEFINITION. When an instruction is well formed: every operand byte that names a register is an index 0 to 7
(30_encoding.md R64). An immediate has no illegal value (R65), and no operand byte has any other restriction (R69). -/

namespace Sys2Proof

/-- The operand bytes of an instruction that name registers, in the order they are checked (60_exceptions.md R108). -/
def Instr.regOperands : Instr → List Byte
  | .ldi a _ => [a]
  | .prn a => [a]
  | .add a b => [a, b]
  | .mul a b => [a, b]
  | .cmp a b => [a, b]
  | .st a b => [a, b]
  | .push a => [a]
  | .pop a => [a]
  | .call a => [a]
  | .ret => []
  | .jmp a => [a]
  | .jeq a => [a]
  | .jne a => [a]
  | .hlt => []

/-- Every register operand is an index of the register file (30_encoding.md R64). -/
def Instr.wf (i : Instr) : Bool := i.regOperands.all (fun b => decide (b.toNat < 8))

end Sys2Proof
end

