-- ==== Sys2Proof/Certificates/Slice0/Obligations.lean ====
section
/-! DEFINITION. The statements about the core, one definition `Obligations.<Name>` each, with the few notions they share. -/

open Sys2Proof Sys2Proof.Machine

namespace Sys2Proof.Claims

/-- The core is Running and the bytes lie in memory at `pc`, the first at `pc` itself. -/
def At (s : State) (bytes : List Byte) : Prop :=
  s.runState = .running ∧ ∀ k b, bytes[k]? = some b → s.byteAt? (s.pc.toNat + k) = some b

/-- The step of `s` raises a fault of this kind. -/
def Raises (kind : FaultKind) (s : State) : Prop :=
  ∃ t r, step s = .next t ∧ t.runState = .faulted ∧ t.faultRec = some r ∧ r.kind = kind

/-- An instruction with opcode byte `ir` and `n` operand bytes raises AddressOutOfRange when one of them lies above 255. -/
def MissingOperandFaults (ir : Byte) (n : Nat) : Prop :=
  ∀ s : State, s.runState = .running → s.byteAt? s.pc.toNat = some ir → 255 < s.pc.toNat + n → Raises .addressOutOfRange s

/-- The one register operand of a format `R` instruction raises RegisterIndexOutOfRange when it is above 7. -/
def BadOperandFaults (ir : Byte) : Prop :=
  ∀ (s : State) (a : Byte), At s [ir, a] → 7 < a.toNat → Raises .registerIndexOutOfRange s

/-- Either register operand of a format `RR` instruction raises RegisterIndexOutOfRange when it is above 7. -/
def BadOperandsFault (ir : Byte) : Prop :=
  ∀ (s : State) (a b : Byte), At s [ir, a, b] → 7 < a.toNat ∨ 7 < b.toNat → Raises .registerIndexOutOfRange s

/-- Nothing but registers and `pc` differs. -/
def OnlyRegsAndPc (s t : State) : Prop :=
  t.fl = s.fl ∧ t.mem = s.mem ∧ t.out = s.out ∧ t.runState = s.runState ∧ t.faultRec = s.faultRec

/-- Nothing but `pc` differs. -/
def OnlyPc (s t : State) : Prop := (∀ r, t.readReg r = s.readReg r) ∧ OnlyRegsAndPc s t

/-- Nothing but registers, memory and `pc` differs. -/
def OnlyRegsMemAndPc (s t : State) : Prop :=
  t.fl = s.fl ∧ t.out = s.out ∧ t.runState = s.runState ∧ t.faultRec = s.faultRec

/-- `s` with a fault taken: the run-state and the record are written and nothing else (40_execution_cycle.md R81). -/
def faulted (s : State) (kind : FaultKind) (opcode : Option Byte) (value : Nat) : State :=
  { s with
    runState := .faulted
    faultRec := some { kind := kind, fpc := s.pc, opcode := opcode, value := value } }

/-- The rows of 30_encoding.md R67 with the handler's instruction, as `DISPATCH` of 40_execution_cycle.md R83. -/
def rows : List (Byte × Format × Nat × (Byte → Byte → Instr)) :=
  [(0x82#8, .RI, 3, .ldi), (0x47#8, .R, 2, fun a _ => .prn a), (0xA0#8, .RR, 3, .add), (0xA2#8, .RR, 3, .mul),
   (0xA7#8, .RR, 3, .cmp), (0x84#8, .RR, 3, .st), (0x45#8, .R, 2, fun a _ => .push a), (0x46#8, .R, 2, fun a _ => .pop a),
   (0x50#8, .R, 2, fun a _ => .call a), (0x11#8, .Z, 1, fun _ _ => .ret), (0x54#8, .R, 2, fun a _ => .jmp a),
   (0x55#8, .R, 2, fun a _ => .jeq a), (0x56#8, .R, 2, fun a _ => .jne a), (0x01#8, .Z, 1, fun _ _ => .hlt)]

/-- The pseudocode of 40_execution_cycle.md R83, line by line. -/
def pseudoStep (s : State) : StepOutcome :=
  let pc := s.pc.toNat
  if pc > 255 then .next (faulted s .addressOutOfRange none pc)
  else
    let ir := s.mem.read pc
    match rows.find? (fun row => row.1 == ir) with
    | none => .next (faulted s .unknownOpcode (some ir) ir.toNat)
    | some (_, fmt, w, handler) =>
      let a := s.mem.read (pc + 1)
      let b := s.mem.read (pc + 2)
      if w ≥ 2 ∧ pc + 1 > 255 then .next (faulted s .addressOutOfRange (some ir) (pc + 1))
      else if w ≥ 3 ∧ pc + 2 > 255 then .next (faulted s .addressOutOfRange (some ir) (pc + 2))
      else if (fmt = .R ∨ fmt = .RR ∨ fmt = .RI) ∧ a.toNat > 7 then
        .next (faulted s .registerIndexOutOfRange (some ir) a.toNat)
      else if fmt = .RR ∧ b.toNat > 7 then .next (faulted s .registerIndexOutOfRange (some ir) b.toNat)
      else exec (handler a b) s

/-- PUSH, POP, CALL and RET, the instructions that use `sp` implicitly (10_state.md R21). -/
def usesStack (i : Instr) : Prop := (∃ a, i = .push a) ∨ (∃ a, i = .pop a) ∨ (∃ a, i = .call a) ∨ i = .ret

/-- The instructions that leave `pc` at the byte after them when they take effect: all but the control transfers and HLT, and JEQ and JNE
when they do not jump (10_state.md R26). -/
def fallsThrough (i : Instr) (s : State) : Prop :=
  match i with
  | .ldi _ _ | .prn _ | .add _ _ | .mul _ _ | .cmp _ _ | .st _ _ | .push _ | .pop _ => True
  | .jeq _ => flagE s.fl = false
  | .jne _ => flagE s.fl = true
  | .call _ | .ret | .jmp _ | .hlt => False

end Sys2Proof.Claims

open Sys2Proof.Claims

/-! ### The fourteen instructions -/

/-- LDI (42_data_movement.md R93): encoding, effect, frame, exceptions. -/
def Obligations.LdiLoadsImmediate : Prop :=
  (∀ s a b, At s [0x82#8, a, b] → step s = exec (.ldi a b) s) ∧
  (∀ (a : Reg) (b : Byte) (s : State), ∃ t, exec (.ldi (regByte a) b) s = .next t ∧
    t.readReg a = b ∧ (∀ r, r ≠ a → t.readReg r = s.readReg r) ∧ t.pc = s.pc + 3 ∧ OnlyRegsAndPc s t) ∧
  MissingOperandFaults 0x82#8 2 ∧
  (∀ s a b, At s [0x82#8, a, b] → 7 < a.toNat → Raises .registerIndexOutOfRange s)

/-- PRN (42_data_movement.md, PRN): the raw byte joins `out`; nothing else but `pc` changes. That the core emits the byte and the host
always takes it is the spec's own decision D19 (log 19). -/
def Obligations.PrnAppendsRegisterToOut : Prop :=
  (∀ s a, At s [0x47#8, a] → step s = exec (.prn a) s) ∧
  (∀ (a : Reg) (s : State), ∃ t, exec (.prn (regByte a)) s = .next t ∧
    t.out = s.out ++ [s.readReg a] ∧ t.pc = s.pc + 2 ∧ (∀ r, t.readReg r = s.readReg r) ∧
    t.fl = s.fl ∧ t.mem = s.mem ∧ t.runState = s.runState ∧ t.faultRec = s.faultRec) ∧
  MissingOperandFaults 0x47#8 1 ∧ BadOperandFaults 0x47#8

/-- ADD (41_alu.md R89): encoding, effect, frame, exceptions. -/
def Obligations.AddSumsMod256 : Prop :=
  (∀ s a b, At s [0xA0#8, a, b] → step s = exec (.add a b) s) ∧
  (∀ (a b : Reg) (s : State), ∃ t, exec (.add (regByte a) (regByte b)) s = .next t ∧
    (t.readReg a).toNat = ((s.readReg a).toNat + (s.readReg b).toNat) % 256 ∧
    (∀ r, r ≠ a → t.readReg r = s.readReg r) ∧ t.pc = s.pc + 3 ∧ OnlyRegsAndPc s t) ∧
  MissingOperandFaults 0xA0#8 2 ∧ BadOperandsFault 0xA0#8

/-- MUL (41_alu.md R90): encoding, effect, frame, exceptions. -/
def Obligations.MulMultipliesMod256 : Prop :=
  (∀ s a b, At s [0xA2#8, a, b] → step s = exec (.mul a b) s) ∧
  (∀ (a b : Reg) (s : State), ∃ t, exec (.mul (regByte a) (regByte b)) s = .next t ∧
    (t.readReg a).toNat = ((s.readReg a).toNat * (s.readReg b).toNat) % 256 ∧
    (∀ r, r ≠ a → t.readReg r = s.readReg r) ∧ t.pc = s.pc + 3 ∧ OnlyRegsAndPc s t) ∧
  MissingOperandFaults 0xA2#8 2 ∧ BadOperandsFault 0xA2#8

/-- CMP (41_alu.md, CMP): the whole of `fl`, unsigned, no register. The bit of each flag and the clearing of bits 7:3 are the spec's own
decisions D3 and D4 (log 3, log 4). -/
def Obligations.CmpWritesOneFlag : Prop :=
  (∀ s a b, At s [0xA7#8, a, b] → step s = exec (.cmp a b) s) ∧
  (∀ (a b : Reg) (s : State), ∃ t, exec (.cmp (regByte a) (regByte b)) s = .next t ∧
    ((s.readReg a).toNat = (s.readReg b).toNat → t.fl = 0b00000001#8) ∧
    ((s.readReg a).toNat > (s.readReg b).toNat → t.fl = 0b00000010#8) ∧
    ((s.readReg a).toNat < (s.readReg b).toNat → t.fl = 0b00000100#8) ∧
    (∀ r, t.readReg r = s.readReg r) ∧ t.pc = s.pc + 3 ∧
    t.mem = s.mem ∧ t.out = s.out ∧ t.runState = s.runState ∧ t.faultRec = s.faultRec) ∧
  MissingOperandFaults 0xA7#8 2 ∧ BadOperandsFault 0xA7#8

/-- ST (42_data_movement.md R94): encoding, the byte stored and its address, frame over all of memory, exceptions. The premise is the
canonical form of memory, which `StepKeepsInvariant` and `ReachableStatesMeetInvariant` keep. -/
def Obligations.StStoresRegister : Prop :=
  (∀ s a b, At s [0x84#8, a, b] → step s = exec (.st a b) s) ∧
  (∀ (a b : Reg) (s : State), ∃ t, exec (.st (regByte a) (regByte b)) s = .next t ∧
    (s.mem.wf = true → t.memRead (s.readReg a) = s.readReg b) ∧
    (∀ n, n ≠ (s.readReg a).toNat → t.mem.read n = s.mem.read n) ∧
    (∀ r, t.readReg r = s.readReg r) ∧ t.pc = s.pc + 3 ∧ OnlyRegsMemAndPc s t) ∧
  MissingOperandFaults 0x84#8 2 ∧ BadOperandsFault 0x84#8

/-- PUSH (43_stack.md, PUSH): `sp` decremented mod 256, then the register stored at the new `sp`. That PUSH R7 stores the decremented
value is the spec's own decision D10 (log 10), the wrap D5 (log 5). -/
def Obligations.PushStoresBelowSp : Prop :=
  (∀ s a, At s [0x45#8, a] → step s = exec (.push a) s) ∧
  (∀ (a : Reg) (s : State), ∃ t, exec (.push (regByte a)) s = .next t ∧
    t.readReg 7 = s.readReg 7 - 1 ∧ (∀ r, r ≠ 7 → t.readReg r = s.readReg r) ∧
    (s.mem.wf = true → t.memRead (s.readReg 7 - 1) = if a = 7 then s.readReg 7 - 1 else s.readReg a) ∧
    (∀ n, n ≠ (s.readReg 7 - 1).toNat → t.mem.read n = s.mem.read n) ∧
    t.pc = s.pc + 2 ∧ OnlyRegsMemAndPc s t) ∧
  MissingOperandFaults 0x45#8 1 ∧ BadOperandFaults 0x45#8

/-- POP (43_stack.md, POP): the byte at `sp` to the register, then `sp` incremented mod 256. That POP R7 increments the popped byte is the
spec's own decision D10 (log 10), the wrap D5 (log 5). -/
def Obligations.PopLoadsFromSp : Prop :=
  (∀ s a, At s [0x46#8, a] → step s = exec (.pop a) s) ∧
  (∀ (a : Reg) (s : State), ∃ t, exec (.pop (regByte a)) s = .next t ∧
    (a ≠ 7 → t.readReg a = s.memRead (s.readReg 7) ∧ t.readReg 7 = s.readReg 7 + 1) ∧
    (a = 7 → t.readReg 7 = s.memRead (s.readReg 7) + 1) ∧
    (∀ r, r ≠ a → r ≠ 7 → t.readReg r = s.readReg r) ∧ t.pc = s.pc + 2 ∧ OnlyRegsAndPc s t) ∧
  MissingOperandFaults 0x46#8 1 ∧ BadOperandFaults 0x46#8

/-- CALL (44_control_transfer.md, CALL): the return address pushed, then the jump; a return address above 255 faults with nothing written.
The fault is the spec's own decision D9 (log 9), the target of CALL R7 D10 (log 10). -/
def Obligations.CallPushesReturnAddress : Prop :=
  (∀ s a, At s [0x50#8, a] → step s = exec (.call a) s) ∧
  (∀ (a : Reg) (s : State), s.pc.toNat + 2 ≤ 255 → ∃ t, exec (.call (regByte a)) s = .next t ∧
    t.readReg 7 = s.readReg 7 - 1 ∧ (∀ r, r ≠ 7 → t.readReg r = s.readReg r) ∧
    (s.mem.wf = true → (t.memRead (s.readReg 7 - 1)).toNat = s.pc.toNat + 2) ∧
    (∀ n, n ≠ (s.readReg 7 - 1).toNat → t.mem.read n = s.mem.read n) ∧
    t.pc.toNat = (if a = 7 then s.readReg 7 - 1 else s.readReg a).toNat ∧ OnlyRegsMemAndPc s t) ∧
  (∀ (a : Reg) (s : State), 255 < s.pc.toNat + 2 →
    exec (.call (regByte a)) s = .next (faulted s .addressOutOfRange (some 0x50#8) (s.pc.toNat + 2))) ∧
  MissingOperandFaults 0x50#8 1 ∧ BadOperandFaults 0x50#8

/-- RET (44_control_transfer.md R100): `pc` from the byte at `sp`, `sp` incremented mod 256; legal at 255; only a fetch at 256 faults. -/
def Obligations.RetPopsProgramCounter : Prop :=
  (∀ s, At s [0x11#8] → step s = exec .ret s) ∧
  (∀ s : State, ∃ t, exec .ret s = .next t ∧
    t.pc.toNat = (s.memRead (s.readReg 7)).toNat ∧ t.readReg 7 = s.readReg 7 + 1 ∧
    (∀ r, r ≠ 7 → t.readReg r = s.readReg r) ∧ OnlyRegsAndPc s t) ∧
  (∀ s : State, s.runState = .running → s.pc.toNat = 256 → Raises .addressOutOfRange s)

/-- JMP (44_control_transfer.md R101): encoding, effect, frame, exceptions. -/
def Obligations.JmpJumpsToRegister : Prop :=
  (∀ s a, At s [0x54#8, a] → step s = exec (.jmp a) s) ∧
  (∀ (a : Reg) (s : State), ∃ t, exec (.jmp (regByte a)) s = .next t ∧
    t.pc.toNat = (s.readReg a).toNat ∧ OnlyPc s t) ∧
  MissingOperandFaults 0x54#8 1 ∧ BadOperandFaults 0x54#8

/-- JEQ (44_control_transfer.md R102): encoding, effect with E set and with E clear, frame, exceptions, taken or not. -/
def Obligations.JeqJumpsWhenEqual : Prop :=
  (∀ s a, At s [0x55#8, a] → step s = exec (.jeq a) s) ∧
  (∀ (a : Reg) (s : State), ∃ t, exec (.jeq (regByte a)) s = .next t ∧
    (flagE s.fl = true → t.pc.toNat = (s.readReg a).toNat) ∧ (flagE s.fl = false → t.pc = s.pc + 2) ∧ OnlyPc s t) ∧
  MissingOperandFaults 0x55#8 1 ∧ BadOperandFaults 0x55#8

/-- JNE (44_control_transfer.md R103): encoding, effect with E clear and with E set, frame, exceptions, taken or not. -/
def Obligations.JneJumpsWhenNotEqual : Prop :=
  (∀ s a, At s [0x56#8, a] → step s = exec (.jne a) s) ∧
  (∀ (a : Reg) (s : State), ∃ t, exec (.jne (regByte a)) s = .next t ∧
    (flagE s.fl = false → t.pc.toNat = (s.readReg a).toNat) ∧ (flagE s.fl = true → t.pc = s.pc + 2) ∧ OnlyPc s t) ∧
  MissingOperandFaults 0x56#8 1 ∧ BadOperandFaults 0x56#8

/-- HLT (44_control_transfer.md, HLT): the run-state becomes Halted and nothing else changes; legal at 255. That `pc` keeps the address of
the HLT is the spec's own decision D11 (log 11). -/
def Obligations.HltHaltsInPlace : Prop :=
  (∀ s, At s [0x01#8] → step s = exec .hlt s) ∧
  (∀ s : State, ∃ t, exec .hlt s = .next t ∧ t.runState = .halted ∧ t.pc = s.pc ∧ (∀ r, t.readReg r = s.readReg r) ∧
    t.fl = s.fl ∧ t.mem = s.mem ∧ t.out = s.out ∧ t.faultRec = s.faultRec)

/-! ### Encoding -/

/-- Decoding and encoding agree, for every instruction and whatever bytes follow: bytes decode to `i` with `rest` left over exactly when
they are the encoding of `i` followed by `rest`. So no operand bit is dropped, and each word has one meaning. -/
def Obligations.DecodeAgreesWithEncode : Prop :=
  ∀ (bytes : List Byte) (i : Instr) (rest : List Byte), decode bytes = .ok (i, rest) ↔ bytes = encode i ++ rest

/-- The dispatch table of 30_encoding.md R67: exactly these fourteen entries, with opcode, format and width. -/
def Obligations.DispatchTableHasFourteenEntries : Prop :=
  allMnemonics.map (fun m => (m, m.opcode, m.format, m.width)) =
    [(.ldi, 0x82#8, .RI, 3), (.prn, 0x47#8, .R, 2), (.add, 0xA0#8, .RR, 3), (.mul, 0xA2#8, .RR, 3), (.cmp, 0xA7#8, .RR, 3),
     (.st, 0x84#8, .RR, 3), (.push, 0x45#8, .R, 2), (.pop, 0x46#8, .R, 2), (.call, 0x50#8, .R, 2), (.ret, 0x11#8, .Z, 1),
     (.jmp, 0x54#8, .R, 2), (.jeq, 0x55#8, .R, 2), (.jne, 0x56#8, .R, 2), (.hlt, 0x01#8, .Z, 1)] ∧
  ∀ (ir : Byte) (m : Mnemonic), dispatch ir = some m ↔ m ∈ allMnemonics ∧ m.opcode = ir

/-- Words written out from the encodings of 30_encoding.md decode to the instructions they stand for. -/
def Obligations.WrittenOutWordsDecode : Prop :=
  decode [0b10000010#8, 0b00000000#8, 0b00001000#8] = .ok (.ldi 0 8, []) ∧
  decode [0b10100010#8, 0b00000000#8, 0b00000001#8] = .ok (.mul 0 1, []) ∧
  decode [0b01000111#8, 0b00000101#8] = .ok (.prn 5, []) ∧
  decode [0b01000101#8, 0b00000111#8] = .ok (.push 7, []) ∧
  decode [0b01010000#8, 0b00000001#8] = .ok (.call 1, []) ∧
  decode [0b00000001#8] = .ok (.hlt, [])

/-- A byte that is none of the fourteen opcodes raises UnknownOpcode, which records itself, wherever it lies (30_encoding.md R68,
60_exceptions.md R107); 242 bytes are unassigned. -/
def Obligations.UnassignedOpcodeFaults : Prop :=
  (∀ (s : State) (ir : Byte), ir ∉ rows.map (·.1) → s.runState = .running → s.byteAt? s.pc.toNat = some ir →
    step s = .next (faulted s .unknownOpcode (some ir) ir.toNat)) ∧
  ((List.range 256).filter (fun n => (dispatch (BitVec.ofNat 8 n)).isNone)).length = 242

/-! ### The step -/

/-- A step runs the instruction that the bytes at `pc` decode to. -/
def Obligations.StepRunsDecodedInstruction : Prop :=
  ∀ (s : State) (i : Instr) (rest : List Byte), s.runState = .running → decode s.window = .ok (i, rest) → step s = exec i s

/-- A step runs the instruction whose encoding lies in memory at `pc`, whatever the bytes after it and wherever memory ends
(40_execution_cycle.md section 1; that the bytes after the instruction are never read is the spec's own decision D7, log 7). -/
def Obligations.StepRunsInstructionInMemory : Prop :=
  ∀ (s : State) (i : Instr), At s (encode i) → step s = exec i s

/-- The step is the pseudocode of 40_execution_cycle.md R83. -/
def Obligations.StepFollowsPseudocode : Prop :=
  ∀ s : State, s.runState = .running → step s = pseudoStep s

/-- The core takes a step exactly while Running, and a step is one instruction or one fault (40_execution_cycle.md R74). -/
def Obligations.StepsExactlyWhileRunning : Prop :=
  (∀ s : State, (∃ t, step s = .next t) ↔ s.runState = .running) ∧
  (∀ s : State, s.runState = .running →
    (∃ i, At s (encode i) ∧ step s = exec i s) ∨ ∃ t, step s = .next t ∧ t.runState = .faulted)

/-- Every instruction completes or takes the fault the spec describes: no meaning stops the model. -/
def Obligations.EveryMeaningAnswersNextState : Prop :=
  ∀ (i : Instr) (s : State), ∃ t, exec i s = .next t

/-! ### Faults -/

/-- A fetch above 255 raises AddressOutOfRange with no opcode (40_execution_cycle.md section 1; the spec's own decision D6, log 6). -/
def Obligations.FetchAboveMemoryFaults : Prop :=
  ∀ s : State, s.runState = .running → 255 < s.pc.toNat →
    step s = .next (faulted s .addressOutOfRange none s.pc.toNat)

/-- An instruction whose operand byte number `k` would lie at 256 raises AddressOutOfRange with value 256, whatever its other operand holds
(40_execution_cycle.md section 1, 60_exceptions.md section 1; decisions D7, D14 and D15, log 7, log 14, log 15). -/
def Obligations.OperandAboveMemoryFaults : Prop :=
  ∀ (s : State) (m : Mnemonic) (k : Nat), s.runState = .running → s.byteAt? s.pc.toNat = some m.opcode →
    1 ≤ k → k < m.width → s.pc.toNat + k = 256 →
    step s = .next (faulted s .addressOutOfRange (some m.opcode) 256)

/-- The first register operand above 7 raises RegisterIndexOutOfRange with that byte, whether or not the handler would use it
(60_exceptions.md section 1; decisions D8 and D14, log 8, log 14). -/
def Obligations.BadRegisterOperandFaults : Prop :=
  ∀ (s : State) (i : Instr) (b : Byte), i.regOperands.find? (fun c => decide (7 < c.toNat)) = some b →
    exec i s = .next (faulted s .registerIndexOutOfRange (some i.mnemonic.opcode) b.toNat) ∧
    (At s (encode i) → step s = .next (faulted s .registerIndexOutOfRange (some i.mnemonic.opcode) b.toNat))

/-- A well-formed instruction that lies in memory whole faults only when it is a CALL whose return address is above 255
(40_execution_cycle.md section 1, derived there; decision D9, log 9). -/
def Obligations.OnlyCallFaultsInHandler : Prop :=
  ∀ (s t : State) (i : Instr), At s (encode i) → i.wf = true → step s = .next t → t.runState = .faulted →
    255 < s.pc.toNat + 2 ∧ ∃ a, i = .call a

/-- AddressOutOfRange arises in exactly three cases and records 256 in each (60_exceptions.md section 1; decisions D6, D9, D15, log 6, log 9,
log 15). The premise on `pc` is the invariant's (`StepKeepsInvariant`). -/
def Obligations.AddressFaultsInThreeCases : Prop :=
  ∀ (s t : State) (r : FaultRecord), s.pc.toNat ≤ 256 → step s = .next t → t.runState = .faulted → t.faultRec = some r →
    r.kind = .addressOutOfRange →
    r.value = 256 ∧ r.fpc = s.pc ∧
    ((s.pc.toNat = 256 ∧ r.opcode = none) ∨
     (∃ m : Mnemonic, s.byteAt? s.pc.toNat = some m.opcode ∧ r.opcode = some m.opcode ∧ 256 < s.pc.toNat + m.width) ∨
     (s.pc.toNat = 254 ∧ s.byteAt? 254 = some 0x50#8 ∧ r.opcode = some 0x50#8))

/-- Faults are precise: a faulting step writes the run-state and the record and nothing else; the record's `fpc` is `pc`, its opcode the byte
at `pc`, if there is one, and its kind one of three, with the kind's code; and the host reads that record in the stop status
(40_execution_cycle.md section 1, 70_reset_and_hazards.md section 2; decision D12, log 12; the codes are decision D13, log 13). -/
def Obligations.FaultsArePrecise : Prop :=
  ∀ s t : State, step s = .next t → t.runState = .faulted →
    ∃ r : FaultRecord, t = { s with runState := .faulted, faultRec := some r } ∧
      r.fpc = s.pc ∧ r.opcode = s.byteAt? s.pc.toNat ∧
      (r.kind = .unknownOpcode ∧ r.code = 1 ∨ r.kind = .registerIndexOutOfRange ∧ r.code = 2 ∨
        r.kind = .addressOutOfRange ∧ r.code = 3) ∧
      t.status = (.faulted, some r)

/-- A step of a Running core faults exactly when no instruction lies whole in memory at `pc` with register operands 0 to 7 and, for CALL, a
return address inside memory (60_exceptions.md section 1; decisions D6 to D9, log 6 to log 9). -/
def Obligations.StepFaultsExactlyWhenNothingCompletes : Prop :=
  ∀ s : State, s.runState = .running →
    ((∃ t, step s = .next t ∧ t.runState = .faulted) ↔
      ¬ ∃ i : Instr, At s (encode i) ∧ i.wf = true ∧ ∀ a, i = .call a → s.pc.toNat + 2 ≤ 255)

/-! ### The run-state -/

/-- The run-state changes only as 10_state.md R35 lists, and each listed change happens: on start, at a HLT, on any fault that the pseudocode
of 40_execution_cycle.md R83 raises (CALL's own among them), and on reset. -/
def Obligations.RunStateChangesAsListed : Prop :=
  (∀ (e : Event) (s t : State), onEvent e s = .next t → t.runState ≠ s.runState →
    (s.runState = .idle ∧ t.runState = .running ∧ e = .host .start) ∨
    (s.runState = .running ∧ t.runState = .halted ∧ e = .step ∧ s.byteAt? s.pc.toNat = some 0x01#8) ∨
    (s.runState = .running ∧ t.runState = .faulted ∧ e = .step ∧ ∃ r, t.faultRec = some r) ∨
    (t.runState = .idle ∧ e = .host .reset)) ∧
  (∀ s : State, s.runState = .idle → ∃ t, onEvent (.host .start) s = .next t ∧ t.runState = .running) ∧
  (∀ s : State, At s [0x01#8] → ∃ t, onEvent .step s = .next t ∧ t.runState = .halted) ∧
  (∀ (s : State) (kind : FaultKind) (opcode : Option Byte) (value : Nat), s.runState = .running →
    pseudoStep s = .next (faulted s kind opcode value) → ∃ t, onEvent .step s = .next t ∧ t.runState = .faulted) ∧
  (∀ s : State, ∃ t, onEvent (.host .reset) s = .next t ∧ t.runState = .idle)

/-- Halted and Faulted are terminal: no step follows, and no event but reset changes anything (40_execution_cycle.md section 1); Halted is
entered only by HLT, and nothing but the run-state changes then. That `pc` keeps the address of the HLT there is the spec's own decision D11
(44_control_transfer.md, HLT; log 11). -/
def Obligations.HaltedAndFaultedAreTerminal : Prop :=
  (∀ (e : Event) (s t : State), s.runState = .halted ∨ s.runState = .faulted → onEvent e s = .next t →
    e = .host .reset ∨ e = .host .start ∧ t = s) ∧
  (∀ s t : State, step s = .next t → t.runState = .halted → s.byteAt? s.pc.toNat = some 0x01#8 ∧ t = { s with runState := .halted })

/-! ### Frames over all instructions -/

/-- Only CMP writes `fl`; only JEQ and JNE read it, and they read only E (10_state.md R31). -/
def Obligations.FlagsWrittenByCmpReadByJumps : Prop :=
  (∀ (i : Instr) (s t : State), exec i s = .next t → (∀ a b, i ≠ .cmp a b) → t.fl = s.fl) ∧
  (∀ (i : Instr) (s t : State) (f : Byte), exec i s = .next t → (∀ a, i ≠ .jeq a ∧ i ≠ .jne a) ∨ flagE f = flagE s.fl →
    ∃ t', exec i { s with fl := f } = .next t' ∧ { t' with fl := t.fl } = t)

/-- PUSH, POP, CALL and RET use `sp` implicitly, and no other instruction uses a register it does not name: giving such a register
another value changes nothing else and leaves that value in place (10_state.md R21). -/
def Obligations.RegistersUsedOnlyAsNamed : Prop :=
  (∀ (i : Instr) (s t : State) (r : Reg) (v : Byte), exec i s = .next t → regByte r ∉ i.regOperands →
    (r = 7 → ¬ usesStack i) → exec i (s.writeReg r v) = .next (t.writeReg r v)) ∧
  (∀ (a : Reg) (s t : State), exec (.push (regByte a)) s = .next t → t.readReg 7 = s.readReg 7 - 1) ∧
  (∀ (a : Reg) (s t : State), a ≠ 7 → exec (.pop (regByte a)) s = .next t → t.readReg 7 = s.readReg 7 + 1) ∧
  (∀ (a : Reg) (s t : State), s.pc.toNat + 2 ≤ 255 → exec (.call (regByte a)) s = .next t → t.readReg 7 = s.readReg 7 - 1) ∧
  (∀ s t : State, exec .ret s = .next t → t.readReg 7 = s.readReg 7 + 1)

/-- Every register keeps its value but the destination of LDI, ADD, MUL and POP, and `sp` in PUSH, POP, CALL and RET. -/
def Obligations.RegistersChangeOnlyAsDestination : Prop :=
  ∀ (i : Instr) (s t : State) (r : Reg), exec i s = .next t →
    (∀ b, i ≠ .ldi (regByte r) b ∧ i ≠ .add (regByte r) b ∧ i ≠ .mul (regByte r) b) → i ≠ .pop (regByte r) →
    (r = 7 → ¬ usesStack i) → t.readReg r = s.readReg r

/-- Every byte of memory keeps its value but the one at the address in `a` for ST and the one below `sp` for PUSH and CALL. -/
def Obligations.MemoryChangesOnlyWhereStored : Prop :=
  ∀ (i : Instr) (s t : State) (n : Nat), exec i s = .next t →
    (∀ (a : Reg) (b : Byte), i = .st (regByte a) b → n ≠ (s.readReg a).toNat) →
    (∀ a, i = .push a ∨ i = .call a → n ≠ (s.readReg 7 - 1).toNat) →
    t.mem.read n = s.mem.read n

/-- No handler reads memory but POP and RET, and they read only the byte at `sp`: other contents elsewhere change nothing outside memory. -/
def Obligations.HandlersReadOnlyTopOfStack : Prop :=
  ∀ (i : Instr) (s t : State) (m : Memory), exec i s = .next t →
    ((∃ a, i = .pop a) ∨ i = .ret → m.read (s.readReg 7).toNat = s.mem.read (s.readReg 7).toNat) →
    ∃ t', exec i { s with mem := m } = .next t' ∧ { t' with mem := t.mem } = t

/-- `out` grows only by PRN, by one value at its end: it lists the PRN values in execution order (70_reset_and_hazards.md section 5,
derived there). -/
def Obligations.OutGrowsOnlyByPrn : Prop :=
  ∀ s t : State, step s = .next t →
    t.out = s.out ∨ ∃ a : Reg, At s [0x47#8, regByte a] ∧ t.out = s.out ++ [s.readReg a]

/-- From inside memory `pc` goes to at most 256, and to 256 only by the sequential advance of an instruction whose last byte is at 255. It
never wraps: an instruction that falls through and does not fault leaves `pc` at exactly the byte after it (10_state.md section 2;
decision D6, log 6). -/
def Obligations.ProgramCounterReaches256OnlyByAdvance : Prop :=
  ∀ s t : State, s.pc.toNat ≤ 255 → step s = .next t →
    t.pc.toNat ≤ 256 ∧
    (t.pc.toNat = 256 → ∃ i, At s (encode i) ∧ s.pc.toNat + (encode i).length = 256 ∧
      (∀ a, i ≠ .call a ∧ i ≠ .jmp a) ∧ i ≠ .ret ∧ i ≠ .hlt) ∧
    (∀ i, At s (encode i) → fallsThrough i s → t.runState ≠ .faulted → t.pc.toNat = s.pc.toNat + (encode i).length)

/-! ### Invariants -/

/-- The invariant holds after reset. Its canonical form of memory is the model's own (log 27). -/
def Obligations.ResetMeetsInvariant : Prop := State.reset.Inv

/-- Every step keeps the invariant, from every state that meets it. The canonical form of memory is the model's own (log 27), the bound on
`pc` decision D6 (log 6), the cleared bits of `fl` D3 and D4 (log 3, log 4), the record D12 (log 12). -/
def Obligations.StepKeepsInvariant : Prop := ∀ s t : State, s.Inv → step s = .next t → t.Inv

/-- Every event, a step or an action of the host, keeps the invariant, from every state that meets it: also a load of any bytes in Idle and
a reset from any run-state. The marks are those of `StepKeepsInvariant`, log 27 among them. -/
def Obligations.EventKeepsInvariant : Prop := ∀ (e : Event) (s t : State), s.Inv → onEvent e s = .next t → t.Inv

/-- Every state that reset, host actions and steps lead to meets the invariant. The marks are those of `StepKeepsInvariant`, log 27 among
them. -/
def Obligations.ReachableStatesMeetInvariant : Prop := ∀ s : State, Reachable s → s.Inv

/-- After a CMP exactly one of E, G and L is set, and a reachable `fl` is one of four bytes (10_state.md R33). -/
def Obligations.ExactlyOneFlagAfterCmp : Prop :=
  (∀ (a b : Reg) (s t : State), exec (.cmp (regByte a) (regByte b)) s = .next t →
    (flagE t.fl && !flagG t.fl && !flagL t.fl || !flagE t.fl && flagG t.fl && !flagL t.fl ||
      !flagE t.fl && !flagG t.fl && flagL t.fl) = true) ∧
  (∀ s : State, Reachable s → s.fl = 0x00#8 ∨ s.fl = 0x01#8 ∨ s.fl = 0x02#8 ∨ s.fl = 0x04#8)

/-! ### Memory and stack -/

/-- Memories in canonical form that read alike at every address are equal data (log 27: the form is the model's own). -/
def Obligations.MemoriesThatReadAlikeAreEqual : Prop :=
  ∀ m m' : Memory, m.wf = true → m'.wf = true → (∀ n, n < 256 → m.read n = m'.read n) → m = m'

/-- A store is seen by the next fetch of the byte, and every other byte is fetched as before (20_memory.md section 7, derived there). -/
def Obligations.StoreIsSeenByFetch : Prop :=
  ∀ (a b : Reg) (s t : State), s.mem.wf = true → exec (.st (regByte a) (regByte b)) s = .next t →
    (State.window { t with pc := (s.readReg a).setWidth 9 }).head? = some (s.readReg b) ∧
    ∀ n, n ≠ (s.readReg a).toNat → t.byteAt? n = s.byteAt? n

/-- PUSH then POP with `sp` and the byte at `sp` untouched between them, in the four cases of 43_stack.md (the round-trip law, derived there;
decision D10, log 10). -/
def Obligations.PushThenPop : Prop :=
  ∀ (a b : Reg) (s t u v : State), s.mem.wf = true → exec (.push (regByte a)) s = .next t →
    u.readReg 7 = t.readReg 7 → u.memRead (t.readReg 7) = t.memRead (t.readReg 7) → exec (.pop (regByte b)) u = .next v →
    (a = b → v.readReg b = s.readReg a ∧ v.readReg 7 = s.readReg 7) ∧
    (a ≠ b → a ≠ 7 → b ≠ 7 → v.readReg b = s.readReg a ∧ v.readReg 7 = s.readReg 7) ∧
    (a = 7 → b ≠ 7 → v.readReg b = s.readReg 7 - 1) ∧
    (a ≠ 7 → b = 7 → v.readReg 7 = s.readReg a + 1)

/-- CALL then RET with `sp` and the byte at `sp` as CALL left them resumes after the CALL (44_control_transfer.md, call convention, derived
there; decision D9 for a CALL at 254, log 9). -/
def Obligations.CallThenRet : Prop :=
  ∀ (a : Reg) (s t u v : State), s.mem.wf = true → s.pc.toNat + 2 ≤ 255 → exec (.call (regByte a)) s = .next t →
    u.readReg 7 = t.readReg 7 → u.memRead (t.readReg 7) = t.memRead (t.readReg 7) → exec .ret u = .next v →
    v.pc.toNat = s.pc.toNat + 2 ∧ v.readReg 7 = s.readReg 7

/-! ### Reset and the host -/

/-- What reset leaves, in every run-state it comes from (70_reset_and_hazards.md section 1). The number 0xF4 is the spec's own decision D2
(log 1), and that reset comes from every run-state D17 (log 17). -/
def Obligations.ResetLeavesGivenValues : Prop :=
  (∀ s : State, hostAct .reset s = .next State.reset) ∧
  (∀ r : Reg, r ≠ 7 → State.reset.readReg r = 0x00#8) ∧ State.reset.readReg 7 = 0xF4#8 ∧ State.reset.pc = 0 ∧
  State.reset.fl = 0x00#8 ∧ (∀ n, n < 256 → State.reset.byteAt? n = some 0x00#8) ∧ State.reset.out = [] ∧
  State.reset.runState = .idle ∧ State.reset.faultRec = none

/-- Load writes the program at 0 in Idle and changes nothing else; after reset the bytes past it hold 0x00; it is refused in another run-state
and when the program is longer than memory (70_reset_and_hazards.md section 2; decision D18, log 18). That the bytes past the program also stay
as they were in an Idle core that was loaded before is the model's reading of the spec (log 28, DEDUCED). -/
def Obligations.LoadPlacesProgramAtZero : Prop :=
  (∀ (p : List Byte) (s : State), s.runState = .idle → p.length ≤ 256 → s.mem.wf = true →
    ∃ t, hostAct (.load p) s = .next t ∧ (∀ k b, p[k]? = some b → t.byteAt? k = some b) ∧
      (∀ n, p.length ≤ n → t.byteAt? n = s.byteAt? n) ∧ t = { s with mem := t.mem }) ∧
  (∀ p : List Byte, p.length ≤ 256 → ∃ t, hostAct (.load p) State.reset = .next t ∧
    ∀ n, p.length ≤ n → n < 256 → t.byteAt? n = some 0x00#8) ∧
  (∀ (p : List Byte) (s : State), s.runState ≠ .idle → hostAct (.load p) s = .refused .loadWhileNotIdle) ∧
  (∀ (p : List Byte) (s : State), s.runState = .idle → 256 < p.length → hostAct (.load p) s = .refused .loadTooLong)

/-- Start moves Idle to Running, with steps beginning at `pc` 0, and has no effect in another run-state (70_reset_and_hazards.md R127). -/
def Obligations.StartRunsFromZero : Prop :=
  (∀ s : State, s.runState = .idle → hostAct .start s = .next { s with runState := .running }) ∧
  (∀ s : State, s.runState ≠ .idle → hostAct .start s = .next s) ∧
  (∀ s : State, Reachable s → s.runState = .idle → s.pc = 0 ∧ s = { State.reset with mem := s.mem })

/-- After reset, load and start the first step runs the instruction at the program's first byte (70_reset_and_hazards.md sections 1 and 2). -/
def Obligations.FirstStepRunsFirstInstruction : Prop :=
  ∀ (i : Instr) (rest : List Byte) (s t : State), (encode i ++ rest).length ≤ 256 →
    hostAct (.load (encode i ++ rest)) State.reset = .next s → hostAct .start s = .next t → step t = exec i t

/-! ### The end of a run -/

/-- A run from a Running state ends Halted, ends Faulted or hangs, only one of them, and its end is one state (40_execution_cycle.md
section 2). -/
def Obligations.RunEndsInOneOfThreeWays : Prop :=
  ∀ s : State, s.runState = .running →
    ((∃ t, EndsHalted s t) ∨ (∃ t, EndsFaulted s t) ∨ Hangs s) ∧
    (∀ t u, ¬ (EndsHalted s t ∧ EndsFaulted s u)) ∧ (∀ t, ¬ (EndsHalted s t ∧ Hangs s)) ∧ (∀ t, ¬ (EndsFaulted s t ∧ Hangs s)) ∧
    (∀ t u, EndsHalted s t → EndsHalted s u → t = u) ∧ (∀ t u, EndsFaulted s t → EndsFaulted s u → t = u)

/-- A run that ends Halted ends at the HLT that stopped it; one that ends Faulted names the `pc` and the opcode byte it stopped at
(40_execution_cycle.md section 2; decisions D11 and D12, log 11, log 12). -/
def Obligations.FinalStateNamesStop : Prop :=
  ∀ s t : State, s.runState = .running →
    (EndsHalted s t → t.byteAt? t.pc.toNat = some 0x01#8) ∧
    (EndsFaulted s t → ∃ r, t.faultRec = some r ∧ r.fpc = t.pc ∧ r.opcode = t.byteAt? t.pc.toNat)
end

