-- ==== Sys2Proof/Laws/Decode.lean ====
section
/-! SUPPORT. The laws of the dispatch table and of the two operand takers of the decoder. -/

namespace Sys2Proof

@[simp] theorem dispatch_opcode (m : Mnemonic) : dispatch m.opcode = some m := by
  cases m <;> decide

/-- The dispatch table selects an entry by its whole opcode byte (30_encoding.md R66). -/
theorem dispatch_eq_some {b : Byte} {m : Mnemonic} : dispatch b = some m ↔ m.opcode = b := by
  constructor
  · intro h
    have := List.find?_some h
    simpa using this
  · rintro rfl
    exact dispatch_opcode m

theorem mem_allMnemonics (m : Mnemonic) : m ∈ allMnemonics := by
  cases m <;> decide

/-- A byte is unassigned exactly when it is no entry's opcode (30_encoding.md R68). -/
theorem dispatch_eq_none {b : Byte} : dispatch b = none ↔ ∀ m : Mnemonic, m.opcode ≠ b := by
  simp only [dispatch, List.find?_eq_none, beq_iff_eq]
  exact ⟨fun h m => h m (mem_allMnemonics m), fun h m _ => h m⟩

/-- What one operand byte gives. -/
theorem takeOne_eq_ok {m : Mnemonic} {build : Byte → Instr} {bytes rest : List Byte} {i : Instr} :
    takeOne m build bytes = .ok (i, rest) ↔ ∃ a, bytes = a :: rest ∧ i = build a := by
  cases bytes with
  | nil => simp [takeOne]
  | cons a tl => simp [takeOne, eq_comm, and_comm]

/-- What two operand bytes give. -/
theorem takeTwo_eq_ok {m : Mnemonic} {build : Byte → Byte → Instr} {bytes rest : List Byte} {i : Instr} :
    takeTwo m build bytes = .ok (i, rest) ↔ ∃ a b, bytes = a :: b :: rest ∧ i = build a b := by
  match bytes with
  | [] => simp [takeTwo]
  | [a] => simp [takeTwo]
  | a :: b :: tl => simp [takeTwo, eq_comm, and_comm]

end Sys2Proof
end

