-- ==== Sys2Proof/Laws/Operands.lean ====
section
/-! SUPPORT. The laws of the operand check: which bytes select a register, and the two ways a checked handler ends. -/

namespace Sys2Proof.Machine

theorem regByte_toNat (r : Reg) : (regByte r).toNat = r.val := by
  have := r.isLt
  simp [regByte]; omega

@[simp] theorem regIndex?_regByte (r : Reg) : regIndex? (regByte r) = some r := by
  have := r.isLt
  simp [regIndex?, regByte_toNat]

theorem regByte_eq_of_regIndex? {b : Byte} {r : Reg} (h : regIndex? b = some r) : b = regByte r := by
  unfold regIndex? at h
  split at h
  · apply BitVec.eq_of_toNat_eq
    rw [regByte_toNat, ← Option.some.inj h]
  · cases h

/-- Every byte names a register or is 8 to 255 (30_encoding.md R64). -/
theorem regByte_cases (b : Byte) : (∃ r, b = regByte r) ∨ 7 < b.toNat := by
  by_cases h : b.toNat < 8
  · exact .inl ⟨⟨b.toNat, h⟩, regByte_eq_of_regIndex? (by simp [regIndex?, h])⟩
  · exact .inr (by omega)

theorem regIndex?_eq_none {b : Byte} : regIndex? b = none ↔ 7 < b.toNat := by
  unfold regIndex?
  split <;> simp <;> omega

@[simp] theorem withReg_regByte (m : Mnemonic) (r : Reg) (s : State) (k : Reg → StepOutcome) :
    withReg m (regByte r) s k = k r := by
  simp [withReg]

theorem withReg_bad {m : Mnemonic} {a : Byte} (s : State) (k : Reg → StepOutcome) (h : 7 < a.toNat) :
    withReg m a s k = .next (s.badRegister m a) := by
  simp [withReg, regIndex?_eq_none.2 h]

@[simp] theorem withRegs_regByte (m : Mnemonic) (ra rb : Reg) (s : State) (k : Reg → Reg → StepOutcome) :
    withRegs m (regByte ra) (regByte rb) s k = k ra rb := by
  simp [withRegs]

/-- The two ways a checked handler ends: the handler ran on the register, or the operand was bad. -/
theorem withReg_cases {m : Mnemonic} {a : Byte} {s : State} {k : Reg → StepOutcome} {o : StepOutcome} (h : withReg m a s k = o) :
    (∃ r, a = regByte r ∧ k r = o) ∨ (7 < a.toNat ∧ o = .next (s.badRegister m a)) := by
  rcases regByte_cases a with ⟨r, rfl⟩ | hb
  · exact .inl ⟨r, rfl, by simpa using h⟩
  · exact .inr ⟨hb, by rw [← h, withReg_bad s k hb]⟩

/-- The three ways a handler with two checked operands ends; `a` is checked first. -/
theorem withRegs_cases {m : Mnemonic} {a b : Byte} {s : State} {k : Reg → Reg → StepOutcome} {o : StepOutcome}
    (h : withRegs m a b s k = o) :
    (∃ ra rb, a = regByte ra ∧ b = regByte rb ∧ k ra rb = o) ∨
    (7 < a.toNat ∧ o = .next (s.badRegister m a)) ∨
    (a.toNat ≤ 7 ∧ 7 < b.toNat ∧ o = .next (s.badRegister m b)) := by
  rcases withReg_cases (m := m) (a := a) h with ⟨ra, rfl, hb⟩ | h
  · rcases withReg_cases (m := m) (a := b) hb with ⟨rb, rfl, hk⟩ | hk
    · exact .inl ⟨ra, rb, rfl, rfl, hk⟩
    · exact .inr (.inr ⟨by have := ra.isLt; rw [regByte_toNat]; omega, hk⟩)
  · exact .inr (.inl h)

end Sys2Proof.Machine
end

