-- ==== Sys2Proof/Laws/Memory.lean ====
section
/-! SUPPORT. The laws of memory: every operation keeps the canonical form, a read after a write gives the byte written at that
address, and every other address reads as before. -/

namespace Sys2Proof.Machine

/-- The canonical form, read off a memory's first cell. -/
theorem Memory.wf_cons_iff (a : Nat) (v : Byte) (m : Memory) :
    Memory.wf ((a, v) :: m) = true ↔
      a < 256 ∧ v ≠ 0x00#8 ∧ (∀ c ∈ m, a < c.1) ∧ Memory.wf m = true := by
  induction m generalizing a v with
  | nil =>
    simp only [Memory.wf, Bool.and_eq_true, decide_eq_true_eq, bne_iff_ne, Config.memReset]
    simp [Config.memSize]
  | cons c rest ih =>
    obtain ⟨b, w⟩ := c
    simp only [Memory.wf, Config.memReset, Bool.and_eq_true, decide_eq_true_eq, bne_iff_ne, ne_eq, List.mem_cons, forall_eq_or_imp]
    rw [ih b w]
    constructor
    · rintro ⟨⟨hab, hv⟩, hb, hw, hr, hm⟩
      exact ⟨by omega, hv, ⟨hab, fun c hc => by have := hr c hc; omega⟩, hb, hw, hr, hm⟩
    · rintro ⟨-, hv, ⟨hab, -⟩, h⟩
      exact ⟨⟨hab, hv⟩, h⟩

theorem Memory.read_of_unlisted (m : Memory) (n : Nat) (h : ∀ c ∈ m, c.1 ≠ n) : m.read n = 0x00#8 := by
  induction m with
  | nil => rfl
  | cons c rest ih =>
    obtain ⟨a, v⟩ := c
    have ha : a ≠ n := h (a, v) (by simp)
    simp only [Memory.read, ha, if_false]
    exact ih fun c hc => h c (by simp [hc])

theorem Memory.mem_cons_cell {n : Nat} {v : Byte} {m : Memory} {c : Host.Cell} (h : c ∈ Memory.cons n v m) :
    c = (n, v) ∨ c ∈ m := by
  unfold Memory.cons at h
  split at h
  · exact .inr h
  · simpa using h

theorem Memory.wf_cons_cell {n : Nat} {v : Byte} {m : Memory} (hn : n < 256) (hm : m.wf = true) (h : ∀ c ∈ m, n < c.1) :
    (Memory.cons n v m).wf = true := by
  unfold Memory.cons
  split
  · exact hm
  · next hv => exact (Memory.wf_cons_iff n v m).2 ⟨hn, hv, h, hm⟩

/-- A write lists no address but the one it writes and those listed before. -/
theorem Memory.mem_write {m : Memory} {n : Nat} {v : Byte} {c : Host.Cell} (h : c ∈ m.write n v) : c = (n, v) ∨ c ∈ m := by
  induction m with
  | nil => simpa using Memory.mem_cons_cell h
  | cons d rest ih =>
    obtain ⟨a, w⟩ := d
    unfold Memory.write at h
    split at h
    · exact Memory.mem_cons_cell h
    · split at h
      · rcases Memory.mem_cons_cell h with h | h
        · exact .inl h
        · exact .inr (by simp [h])
      · rcases List.mem_cons.1 h with h | h
        · exact .inr (by simp [h])
        · rcases ih h with h | h
          · exact .inl h
          · exact .inr (by simp [h])

/-- A write keeps the canonical form. -/
theorem Memory.wf_write {m : Memory} {n : Nat} (v : Byte) (hn : n < 256) (hm : m.wf = true) : (m.write n v).wf = true := by
  induction m with
  | nil => exact Memory.wf_cons_cell hn rfl (by simp)
  | cons d rest ih =>
    obtain ⟨a, w⟩ := d
    obtain ⟨ha, hw, hr, hrest⟩ := (Memory.wf_cons_iff a w rest).1 hm
    unfold Memory.write
    split
    · next hlt =>
      refine Memory.wf_cons_cell hn hm fun c hc => ?_
      rcases List.mem_cons.1 hc with rfl | hc
      · exact hlt
      · have := hr c hc; omega
    · split
      · next heq => exact Memory.wf_cons_cell hn hrest (by rw [heq]; exact hr)
      · next hlt hne =>
        refine (Memory.wf_cons_iff a w _).2 ⟨ha, hw, fun c hc => ?_, ih hrest⟩
        rcases Memory.mem_write hc with rfl | hc
        · show a < n
          omega
        · exact hr c hc

theorem Memory.read_cons_cell_other {n k : Nat} (v : Byte) (m : Memory) (h : k ≠ n) : (Memory.cons n v m).read k = m.read k := by
  unfold Memory.cons
  split
  · rfl
  · simp [Memory.read, h.symm]

theorem Memory.read_cons_cell_same {n : Nat} (v : Byte) (m : Memory) (h : ∀ c ∈ m, n < c.1) :
    (Memory.cons n v m).read n = v := by
  unfold Memory.cons
  split
  · next hv => rw [hv]; exact Memory.read_of_unlisted m n fun c hc => by have := h c hc; omega
  · simp [Memory.read]

/-- A write leaves every other address alone. -/
theorem Memory.read_write_other {n k : Nat} (m : Memory) (v : Byte) (h : k ≠ n) : (m.write n v).read k = m.read k := by
  induction m with
  | nil => exact Memory.read_cons_cell_other v [] h
  | cons d rest ih =>
    obtain ⟨a, w⟩ := d
    unfold Memory.write
    split
    · exact Memory.read_cons_cell_other v _ h
    · split
      · next heq =>
        rw [Memory.read_cons_cell_other v rest h]
        simp [Memory.read, show a ≠ k by omega]
      · simp only [Memory.read, ih]

/-- A read after a write to the same address gives the byte written. -/
theorem Memory.read_write_same {m : Memory} (n : Nat) (v : Byte) (hm : m.wf = true) : (m.write n v).read n = v := by
  induction m with
  | nil => exact Memory.read_cons_cell_same v [] (by simp)
  | cons d rest ih =>
    obtain ⟨a, w⟩ := d
    obtain ⟨-, -, hr, hrest⟩ := (Memory.wf_cons_iff a w rest).1 hm
    unfold Memory.write
    split
    · next hlt =>
      refine Memory.read_cons_cell_same v _ fun c hc => ?_
      rcases List.mem_cons.1 hc with rfl | hc
      · exact hlt
      · have := hr c hc; omega
    · split
      · next heq => exact Memory.read_cons_cell_same v rest (by rw [heq]; exact hr)
      · next hlt hne =>
        simp only [Memory.read, show a ≠ n by omega, if_false]
        exact ih hrest

/-- Everything a read after a write can give. -/
theorem Memory.read_write {m : Memory} (n k : Nat) (v : Byte) (hm : m.wf = true) :
    (m.write n v).read k = if k = n then v else m.read k := by
  split
  · next h => rw [h]; exact Memory.read_write_same n v hm
  · next h => exact Memory.read_write_other m v h

/-- Storing a list of bytes keeps the canonical form. -/
theorem Memory.wf_writeBytes {m : Memory} (n : Nat) (bytes : List Byte) (hm : m.wf = true) :
    (m.writeBytes n bytes).wf = true := by
  induction bytes generalizing m n with
  | nil => exact hm
  | cons v rest ih =>
    unfold Memory.writeBytes
    split
    · next h => exact ih (n + 1) (Memory.wf_write v h hm)
    · exact hm

/-- Bytes stored from `n` on leave every address below `n` alone. -/
theorem Memory.read_writeBytes_below (m : Memory) (n k : Nat) (bytes : List Byte) (h : k < n) :
    (m.writeBytes n bytes).read k = m.read k := by
  induction bytes generalizing m n with
  | nil => rfl
  | cons v rest ih =>
    unfold Memory.writeBytes
    split
    · rw [ih _ _ (by omega), Memory.read_write_other m v (by omega)]
    · rfl

/-- Storing a list of bytes that fits: each byte reads back at its place, and every address past the last one is left alone. -/
theorem Memory.read_writeBytes {m : Memory} (n : Nat) (bytes : List Byte) (hm : m.wf = true) (hl : n + bytes.length ≤ 256) :
    (∀ k b, bytes[k]? = some b → (m.writeBytes n bytes).read (n + k) = b) ∧
    (∀ k, n + bytes.length ≤ k → (m.writeBytes n bytes).read k = m.read k) := by
  induction bytes generalizing m n with
  | nil => simp [Memory.writeBytes]
  | cons v rest ih =>
    simp only [List.length_cons] at hl
    have hn : n < Config.memSize := by simp only [Config.memSize]; omega
    obtain ⟨inside, past⟩ := ih (n + 1) (Memory.wf_write v hn hm) (by omega)
    refine ⟨fun k b hk => ?_, fun k hk => ?_⟩
    · rw [Memory.writeBytes, if_pos hn]
      cases k with
      | zero =>
        rw [Memory.read_writeBytes_below _ _ _ _ (by omega)]
        obtain rfl : v = b := by simpa using hk
        exact Memory.read_write_same n v hm
      | succ k =>
        rw [show n + (k + 1) = n + 1 + k by omega]
        exact inside k b (by simpa using hk)
    · simp only [List.length_cons] at hk
      rw [Memory.writeBytes, if_pos hn, past k (by omega)]
      exact Memory.read_write_other _ _ (by omega)

end Sys2Proof.Machine
end

