-- ==== Sys2Proof/Laws/State.lean ====
section
/-! SUPPORT. What each named operation does to each field of the state, one lemma per field and operation. -/

namespace Sys2Proof.Machine

variable (s : State)

@[simp] theorem State.writeReg_regs (r : Reg) (v : Byte) : (s.writeReg r v).regs = s.regs.set r v := rfl
@[simp] theorem State.writeReg_pc (r : Reg) (v : Byte) : (s.writeReg r v).pc = s.pc := rfl
@[simp] theorem State.writeReg_fl (r : Reg) (v : Byte) : (s.writeReg r v).fl = s.fl := rfl
@[simp] theorem State.writeReg_mem (r : Reg) (v : Byte) : (s.writeReg r v).mem = s.mem := rfl
@[simp] theorem State.writeReg_out (r : Reg) (v : Byte) : (s.writeReg r v).out = s.out := rfl
@[simp] theorem State.writeReg_runState (r : Reg) (v : Byte) : (s.writeReg r v).runState = s.runState := rfl
@[simp] theorem State.writeReg_faultRec (r : Reg) (v : Byte) : (s.writeReg r v).faultRec = s.faultRec := rfl

@[simp] theorem State.memWrite_regs (a v : Byte) : (s.memWrite a v).regs = s.regs := rfl
@[simp] theorem State.memWrite_pc (a v : Byte) : (s.memWrite a v).pc = s.pc := rfl
@[simp] theorem State.memWrite_fl (a v : Byte) : (s.memWrite a v).fl = s.fl := rfl
@[simp] theorem State.memWrite_mem (a v : Byte) : (s.memWrite a v).mem = s.mem.write a.toNat v := rfl
@[simp] theorem State.memWrite_out (a v : Byte) : (s.memWrite a v).out = s.out := rfl
@[simp] theorem State.memWrite_runState (a v : Byte) : (s.memWrite a v).runState = s.runState := rfl
@[simp] theorem State.memWrite_faultRec (a v : Byte) : (s.memWrite a v).faultRec = s.faultRec := rfl

@[simp] theorem State.decSp_regs : (s.decSp).regs = s.regs.set Config.spIndex (narrow (s.sp.toNat + 255)) := rfl
@[simp] theorem State.decSp_pc : (s.decSp).pc = s.pc := rfl
@[simp] theorem State.decSp_fl : (s.decSp).fl = s.fl := rfl
@[simp] theorem State.decSp_mem : (s.decSp).mem = s.mem := rfl
@[simp] theorem State.decSp_out : (s.decSp).out = s.out := rfl
@[simp] theorem State.decSp_runState : (s.decSp).runState = s.runState := rfl
@[simp] theorem State.decSp_faultRec : (s.decSp).faultRec = s.faultRec := rfl

@[simp] theorem State.incSp_regs : (s.incSp).regs = s.regs.set Config.spIndex (narrow (s.sp.toNat + 1)) := rfl
@[simp] theorem State.incSp_pc : (s.incSp).pc = s.pc := rfl
@[simp] theorem State.incSp_fl : (s.incSp).fl = s.fl := rfl
@[simp] theorem State.incSp_mem : (s.incSp).mem = s.mem := rfl
@[simp] theorem State.incSp_out : (s.incSp).out = s.out := rfl
@[simp] theorem State.incSp_runState : (s.incSp).runState = s.runState := rfl
@[simp] theorem State.incSp_faultRec : (s.incSp).faultRec = s.faultRec := rfl

@[simp] theorem State.advance_regs (w : Nat) : (s.advance w).regs = s.regs := rfl
@[simp] theorem State.advance_pc (w : Nat) : (s.advance w).pc = s.pc + BitVec.ofNat 9 w := rfl
@[simp] theorem State.advance_fl (w : Nat) : (s.advance w).fl = s.fl := rfl
@[simp] theorem State.advance_mem (w : Nat) : (s.advance w).mem = s.mem := rfl
@[simp] theorem State.advance_out (w : Nat) : (s.advance w).out = s.out := rfl
@[simp] theorem State.advance_runState (w : Nat) : (s.advance w).runState = s.runState := rfl
@[simp] theorem State.advance_faultRec (w : Nat) : (s.advance w).faultRec = s.faultRec := rfl

@[simp] theorem State.jump_regs (v : Byte) : (s.jump v).regs = s.regs := rfl
@[simp] theorem State.jump_pc (v : Byte) : (s.jump v).pc = v.setWidth 9 := rfl
@[simp] theorem State.jump_fl (v : Byte) : (s.jump v).fl = s.fl := rfl
@[simp] theorem State.jump_mem (v : Byte) : (s.jump v).mem = s.mem := rfl
@[simp] theorem State.jump_out (v : Byte) : (s.jump v).out = s.out := rfl
@[simp] theorem State.jump_runState (v : Byte) : (s.jump v).runState = s.runState := rfl
@[simp] theorem State.jump_faultRec (v : Byte) : (s.jump v).faultRec = s.faultRec := rfl

@[simp] theorem State.emit_regs (v : Byte) : (s.emit v).regs = s.regs := rfl
@[simp] theorem State.emit_pc (v : Byte) : (s.emit v).pc = s.pc := rfl
@[simp] theorem State.emit_fl (v : Byte) : (s.emit v).fl = s.fl := rfl
@[simp] theorem State.emit_mem (v : Byte) : (s.emit v).mem = s.mem := rfl
@[simp] theorem State.emit_out (v : Byte) : (s.emit v).out = s.out ++ [v] := rfl
@[simp] theorem State.emit_runState (v : Byte) : (s.emit v).runState = s.runState := rfl
@[simp] theorem State.emit_faultRec (v : Byte) : (s.emit v).faultRec = s.faultRec := rfl

@[simp] theorem State.halt_regs : (s.halt).regs = s.regs := rfl
@[simp] theorem State.halt_pc : (s.halt).pc = s.pc := rfl
@[simp] theorem State.halt_fl : (s.halt).fl = s.fl := rfl
@[simp] theorem State.halt_mem : (s.halt).mem = s.mem := rfl
@[simp] theorem State.halt_out : (s.halt).out = s.out := rfl
@[simp] theorem State.halt_runState : (s.halt).runState = .halted := rfl
@[simp] theorem State.halt_faultRec : (s.halt).faultRec = s.faultRec := rfl

@[simp] theorem State.raise_regs (k : FaultKind) (o : Option Byte) (n : Nat) : (s.raise k o n).regs = s.regs := rfl
@[simp] theorem State.raise_pc (k : FaultKind) (o : Option Byte) (n : Nat) : (s.raise k o n).pc = s.pc := rfl
@[simp] theorem State.raise_fl (k : FaultKind) (o : Option Byte) (n : Nat) : (s.raise k o n).fl = s.fl := rfl
@[simp] theorem State.raise_mem (k : FaultKind) (o : Option Byte) (n : Nat) : (s.raise k o n).mem = s.mem := rfl
@[simp] theorem State.raise_out (k : FaultKind) (o : Option Byte) (n : Nat) : (s.raise k o n).out = s.out := rfl
@[simp] theorem State.raise_runState (k : FaultKind) (o : Option Byte) (n : Nat) : (s.raise k o n).runState = .faulted := rfl
@[simp] theorem State.raise_faultRec (k : FaultKind) (o : Option Byte) (n : Nat) : (s.raise k o n).faultRec = some { kind := k, fpc := s.pc, opcode := o, value := n } := rfl

@[simp] theorem State.memWrite_readReg (a v : Byte) (r : Reg) : (s.memWrite a v).readReg r = s.readReg r := rfl
@[simp] theorem State.memWrite_sp (a v : Byte) : (s.memWrite a v).sp = s.sp := rfl
@[simp] theorem State.advance_readReg (w : Nat) (r : Reg) : (s.advance w).readReg r = s.readReg r := rfl
@[simp] theorem State.advance_sp (w : Nat) : (s.advance w).sp = s.sp := rfl
@[simp] theorem State.jump_readReg (v : Byte) (r : Reg) : (s.jump v).readReg r = s.readReg r := rfl
@[simp] theorem State.jump_sp (v : Byte) : (s.jump v).sp = s.sp := rfl
@[simp] theorem State.emit_readReg (v : Byte) (r : Reg) : (s.emit v).readReg r = s.readReg r := rfl
@[simp] theorem State.emit_sp (v : Byte) : (s.emit v).sp = s.sp := rfl
@[simp] theorem State.halt_readReg (r : Reg) : (s.halt).readReg r = s.readReg r := rfl
@[simp] theorem State.halt_sp : (s.halt).sp = s.sp := rfl
@[simp] theorem State.raise_readReg (k : FaultKind) (o : Option Byte) (n : Nat) (r : Reg) : (s.raise k o n).readReg r = s.readReg r := rfl
@[simp] theorem State.raise_sp (k : FaultKind) (o : Option Byte) (n : Nat) : (s.raise k o n).sp = s.sp := rfl
@[simp] theorem State.writeReg_memRead (r : Reg) (v : Byte) (c : Byte) : (s.writeReg r v).memRead c = s.memRead c := rfl
@[simp] theorem State.decSp_memRead (c : Byte) : (s.decSp).memRead c = s.memRead c := rfl
@[simp] theorem State.incSp_memRead (c : Byte) : (s.incSp).memRead c = s.memRead c := rfl
@[simp] theorem State.advance_memRead (w : Nat) (c : Byte) : (s.advance w).memRead c = s.memRead c := rfl
@[simp] theorem State.jump_memRead (v : Byte) (c : Byte) : (s.jump v).memRead c = s.memRead c := rfl
@[simp] theorem State.emit_memRead (v : Byte) (c : Byte) : (s.emit v).memRead c = s.memRead c := rfl
@[simp] theorem State.halt_memRead (c : Byte) : (s.halt).memRead c = s.memRead c := rfl
@[simp] theorem State.raise_memRead (k : FaultKind) (o : Option Byte) (n : Nat) (c : Byte) : (s.raise k o n).memRead c = s.memRead c := rfl

end Sys2Proof.Machine
end

