-- ==== Sys2Proof/Laws/Ops.lean ====
section
/-! SUPPORT. The laws of the register, stack-pointer and memory operations of the state, one lemma per fact a caller needs. -/

namespace Sys2Proof.Machine

/-- A register write changes the register written and no other (10_state.md R22, R23). -/
theorem State.readReg_writeReg (s : State) (r q : Reg) (v : Byte) :
    (s.writeReg r v).readReg q = if q = r then v else s.readReg q := by
  simp only [State.readReg, State.writeReg, Fin.getElem_fin, Vector.getElem_set, Fin.ext_iff, eq_comm]

@[simp] theorem State.readReg_writeReg_same (s : State) (r : Reg) (v : Byte) : (s.writeReg r v).readReg r = v := by
  simp [State.readReg_writeReg]

theorem State.readReg_writeReg_other (s : State) {r q : Reg} (v : Byte) (h : q ≠ r) :
    (s.writeReg r v).readReg q = s.readReg q := by
  simp [State.readReg_writeReg, h]

/-- Two register files that read alike are equal. -/
theorem State.regs_ext {s t : State} (h : ∀ r, s.readReg r = t.readReg r) : s.regs = t.regs := by
  ext i hi
  have := h ⟨i, hi⟩
  simp only [State.readReg, Fin.getElem_fin] at this
  rw [this]

theorem narrow_pred (v : Byte) : narrow (v.toNat + 255) = v - 1 := by
  apply BitVec.eq_of_toNat_eq
  have h1 : (1 : Byte).toNat = 1 := rfl
  simp only [narrow, BitVec.toNat_ofNat, BitVec.toNat_sub, h1]
  omega

theorem narrow_succ (v : Byte) : narrow (v.toNat + 1) = v + 1 := by
  apply BitVec.eq_of_toNat_eq
  simp [narrow, BitVec.toNat_add]

/-- The stack pointer after a decrement, mod 256 (20_memory.md R61). -/
@[simp] theorem State.decSp_sp (s : State) : s.decSp.sp = s.sp - 1 := by
  simp [State.decSp, State.sp, narrow_pred]

/-- The stack pointer after an increment, mod 256 (20_memory.md R61). -/
@[simp] theorem State.incSp_sp (s : State) : s.incSp.sp = s.sp + 1 := by
  simp [State.incSp, State.sp, narrow_succ]

theorem State.decSp_readReg (s : State) (r : Reg) : s.decSp.readReg r = if r = 7 then s.sp - 1 else s.readReg r := by
  simp [State.decSp, State.readReg_writeReg, Config.spIndex, narrow_pred]

theorem State.incSp_readReg (s : State) (r : Reg) : s.incSp.readReg r = if r = 7 then s.sp + 1 else s.readReg r := by
  simp [State.incSp, State.readReg_writeReg, Config.spIndex, narrow_succ]

/-- A data read after a data write, in a memory in canonical form (20_memory.md R44, R45). -/
theorem State.memRead_memWrite (s : State) (a c v : Byte) (hm : s.mem.wf = true) :
    (s.memWrite a v).memRead c = if c = a then v else s.memRead c := by
  simp [State.memRead, Memory.read_write, hm, BitVec.toNat_inj]

/-- A data write keeps the canonical form. -/
theorem State.wf_memWrite (s : State) (a v : Byte) (hm : s.mem.wf = true) : (s.memWrite a v).mem.wf = true :=
  Memory.wf_write v a.isLt hm

@[simp] theorem State.byteAt?_eq_some {s : State} {n : Nat} {v : Byte} :
    s.byteAt? n = some v ↔ n < 256 ∧ s.mem.read n = v := by
  unfold State.byteAt? Config.memSize
  split <;> simp_all

@[simp] theorem State.byteAt?_eq_none {s : State} {n : Nat} : s.byteAt? n = none ↔ 256 ≤ n := by
  unfold State.byteAt? Config.memSize
  split <;> simp_all

end Sys2Proof.Machine
end

