-- ==== Sys2Proof/Laws/Exec.lean ====
section
/-! SUPPORT. What each meaning answers on register operands, and the ways a meaning can end: its effect, or the fault of a bad
register operand. Later proofs cite these instead of unfolding a meaning. -/

namespace Sys2Proof.Machine

variable {s t : State}

theorem execAdd_regs (ra rb : Reg) (s : State) :
    exec (.add (regByte ra) (regByte rb)) s = .next ((s.writeReg ra (aluAdd (s.readReg ra) (s.readReg rb))).advance 3) := by
  simp [exec, execAdd, Mnemonic.width, Mnemonic.format, Format.width]

theorem execAdd_cases {a b : Byte} (h : exec (.add a b) s = .next t) :
    (∃ ra rb, a = regByte ra ∧ b = regByte rb ∧ t = ((s.writeReg ra (aluAdd (s.readReg ra) (s.readReg rb))).advance 3)) ∨
    (∃ c, (7 < a.toNat ∧ c = a ∨ a.toNat ≤ 7 ∧ 7 < b.toNat ∧ c = b) ∧ t = s.badRegister .add c) := by
  rcases withRegs_cases (m := .add) h with ⟨ra, rb, rfl, rfl, hk⟩ | ⟨ha, hk⟩ | ⟨ha, hb, hk⟩
  · exact .inl ⟨ra, rb, rfl, rfl, (Host.Outcome.next.inj hk).symm⟩
  · exact .inr ⟨a, .inl ⟨ha, rfl⟩, Host.Outcome.next.inj hk⟩
  · exact .inr ⟨b, .inr ⟨ha, hb, rfl⟩, Host.Outcome.next.inj hk⟩

theorem execMul_regs (ra rb : Reg) (s : State) :
    exec (.mul (regByte ra) (regByte rb)) s = .next ((s.writeReg ra (aluMul (s.readReg ra) (s.readReg rb))).advance 3) := by
  simp [exec, execMul, Mnemonic.width, Mnemonic.format, Format.width]

theorem execMul_cases {a b : Byte} (h : exec (.mul a b) s = .next t) :
    (∃ ra rb, a = regByte ra ∧ b = regByte rb ∧ t = ((s.writeReg ra (aluMul (s.readReg ra) (s.readReg rb))).advance 3)) ∨
    (∃ c, (7 < a.toNat ∧ c = a ∨ a.toNat ≤ 7 ∧ 7 < b.toNat ∧ c = b) ∧ t = s.badRegister .mul c) := by
  rcases withRegs_cases (m := .mul) h with ⟨ra, rb, rfl, rfl, hk⟩ | ⟨ha, hk⟩ | ⟨ha, hb, hk⟩
  · exact .inl ⟨ra, rb, rfl, rfl, (Host.Outcome.next.inj hk).symm⟩
  · exact .inr ⟨a, .inl ⟨ha, rfl⟩, Host.Outcome.next.inj hk⟩
  · exact .inr ⟨b, .inr ⟨ha, hb, rfl⟩, Host.Outcome.next.inj hk⟩

theorem execCmp_regs (ra rb : Reg) (s : State) :
    exec (.cmp (regByte ra) (regByte rb)) s = .next (State.advance { s with fl := compareFlags (s.readReg ra) (s.readReg rb) } 3) := by
  simp [exec, execCmp, Mnemonic.width, Mnemonic.format, Format.width]

theorem execCmp_cases {a b : Byte} (h : exec (.cmp a b) s = .next t) :
    (∃ ra rb, a = regByte ra ∧ b = regByte rb ∧ t = (State.advance { s with fl := compareFlags (s.readReg ra) (s.readReg rb) } 3)) ∨
    (∃ c, (7 < a.toNat ∧ c = a ∨ a.toNat ≤ 7 ∧ 7 < b.toNat ∧ c = b) ∧ t = s.badRegister .cmp c) := by
  rcases withRegs_cases (m := .cmp) h with ⟨ra, rb, rfl, rfl, hk⟩ | ⟨ha, hk⟩ | ⟨ha, hb, hk⟩
  · exact .inl ⟨ra, rb, rfl, rfl, (Host.Outcome.next.inj hk).symm⟩
  · exact .inr ⟨a, .inl ⟨ha, rfl⟩, Host.Outcome.next.inj hk⟩
  · exact .inr ⟨b, .inr ⟨ha, hb, rfl⟩, Host.Outcome.next.inj hk⟩

theorem execSt_regs (ra rb : Reg) (s : State) :
    exec (.st (regByte ra) (regByte rb)) s = .next ((s.memWrite (s.readReg ra) (s.readReg rb)).advance 3) := by
  simp [exec, execSt, Mnemonic.width, Mnemonic.format, Format.width]

theorem execSt_cases {a b : Byte} (h : exec (.st a b) s = .next t) :
    (∃ ra rb, a = regByte ra ∧ b = regByte rb ∧ t = ((s.memWrite (s.readReg ra) (s.readReg rb)).advance 3)) ∨
    (∃ c, (7 < a.toNat ∧ c = a ∨ a.toNat ≤ 7 ∧ 7 < b.toNat ∧ c = b) ∧ t = s.badRegister .st c) := by
  rcases withRegs_cases (m := .st) h with ⟨ra, rb, rfl, rfl, hk⟩ | ⟨ha, hk⟩ | ⟨ha, hb, hk⟩
  · exact .inl ⟨ra, rb, rfl, rfl, (Host.Outcome.next.inj hk).symm⟩
  · exact .inr ⟨a, .inl ⟨ha, rfl⟩, Host.Outcome.next.inj hk⟩
  · exact .inr ⟨b, .inr ⟨ha, hb, rfl⟩, Host.Outcome.next.inj hk⟩

theorem execLdi_regs (ra : Reg) (b : Byte) (s : State) :
    exec (.ldi (regByte ra) b) s = .next ((s.writeReg ra b).advance 3) := by
  simp [exec, execLdi, Mnemonic.width, Mnemonic.format, Format.width]

theorem execLdi_cases {a b : Byte} (h : exec (.ldi a b) s = .next t) :
    (∃ ra, a = regByte ra ∧ t = (s.writeReg ra b).advance 3) ∨ (7 < a.toNat ∧ t = s.badRegister .ldi a) := by
  rcases withReg_cases (m := .ldi) h with ⟨ra, rfl, hk⟩ | ⟨ha, hk⟩
  · exact .inl ⟨ra, rfl, (Host.Outcome.next.inj hk).symm⟩
  · exact .inr ⟨ha, Host.Outcome.next.inj hk⟩

theorem execPrn_regs (ra : Reg) (s : State) :
    exec (.prn (regByte ra)) s = .next ((s.emit (s.readReg ra)).advance 2) := by
  simp [exec, execPrn, Mnemonic.width, Mnemonic.format, Format.width]

theorem execPrn_cases {a : Byte} (h : exec (.prn a) s = .next t) :
    (∃ ra, a = regByte ra ∧ t = ((s.emit (s.readReg ra)).advance 2)) ∨ (7 < a.toNat ∧ t = s.badRegister .prn a) := by
  rcases withReg_cases (m := .prn) h with ⟨ra, rfl, hk⟩ | ⟨ha, hk⟩
  · exact .inl ⟨ra, rfl, Host.Outcome.next.inj (h.symm.trans (execPrn_regs ra s))⟩
  · exact .inr ⟨ha, Host.Outcome.next.inj hk⟩

theorem execPush_regs (ra : Reg) (s : State) :
    exec (.push (regByte ra)) s = .next ((s.decSp.memWrite s.decSp.sp (s.decSp.readReg ra)).advance 2) := by
  simp [exec, execPush, Mnemonic.width, Mnemonic.format, Format.width]

theorem execPush_cases {a : Byte} (h : exec (.push a) s = .next t) :
    (∃ ra, a = regByte ra ∧ t = ((s.decSp.memWrite s.decSp.sp (s.decSp.readReg ra)).advance 2)) ∨ (7 < a.toNat ∧ t = s.badRegister .push a) := by
  rcases withReg_cases (m := .push) h with ⟨ra, rfl, hk⟩ | ⟨ha, hk⟩
  · exact .inl ⟨ra, rfl, Host.Outcome.next.inj (h.symm.trans (execPush_regs ra s))⟩
  · exact .inr ⟨ha, Host.Outcome.next.inj hk⟩

theorem execPop_regs (ra : Reg) (s : State) :
    exec (.pop (regByte ra)) s = .next ((s.writeReg ra (s.memRead s.sp)).incSp.advance 2) := by
  simp [exec, execPop, Mnemonic.width, Mnemonic.format, Format.width]

theorem execPop_cases {a : Byte} (h : exec (.pop a) s = .next t) :
    (∃ ra, a = regByte ra ∧ t = ((s.writeReg ra (s.memRead s.sp)).incSp.advance 2)) ∨ (7 < a.toNat ∧ t = s.badRegister .pop a) := by
  rcases withReg_cases (m := .pop) h with ⟨ra, rfl, hk⟩ | ⟨ha, hk⟩
  · exact .inl ⟨ra, rfl, Host.Outcome.next.inj (h.symm.trans (execPop_regs ra s))⟩
  · exact .inr ⟨ha, Host.Outcome.next.inj hk⟩

theorem execJmp_regs (ra : Reg) (s : State) :
    exec (.jmp (regByte ra)) s = .next (s.jump (s.readReg ra)) := by
  simp [exec, execJmp]

theorem execJmp_cases {a : Byte} (h : exec (.jmp a) s = .next t) :
    (∃ ra, a = regByte ra ∧ t = (s.jump (s.readReg ra))) ∨ (7 < a.toNat ∧ t = s.badRegister .jmp a) := by
  rcases withReg_cases (m := .jmp) h with ⟨ra, rfl, hk⟩ | ⟨ha, hk⟩
  · exact .inl ⟨ra, rfl, Host.Outcome.next.inj (h.symm.trans (execJmp_regs ra s))⟩
  · exact .inr ⟨ha, Host.Outcome.next.inj hk⟩

theorem execJeq_regs (ra : Reg) (s : State) :
    exec (.jeq (regByte ra)) s = .next (if flagE s.fl then s.jump (s.readReg ra) else s.advance 2) := by
  simp [exec, execJeq, Mnemonic.width, Mnemonic.format, Format.width]

theorem execJeq_cases {a : Byte} (h : exec (.jeq a) s = .next t) :
    (∃ ra, a = regByte ra ∧ t = (if flagE s.fl then s.jump (s.readReg ra) else s.advance 2)) ∨ (7 < a.toNat ∧ t = s.badRegister .jeq a) := by
  rcases withReg_cases (m := .jeq) h with ⟨ra, rfl, hk⟩ | ⟨ha, hk⟩
  · exact .inl ⟨ra, rfl, Host.Outcome.next.inj (h.symm.trans (execJeq_regs ra s))⟩
  · exact .inr ⟨ha, Host.Outcome.next.inj hk⟩

theorem execJne_regs (ra : Reg) (s : State) :
    exec (.jne (regByte ra)) s = .next (if flagE s.fl then s.advance 2 else s.jump (s.readReg ra)) := by
  simp [exec, execJne, Mnemonic.width, Mnemonic.format, Format.width]

theorem execJne_cases {a : Byte} (h : exec (.jne a) s = .next t) :
    (∃ ra, a = regByte ra ∧ t = (if flagE s.fl then s.advance 2 else s.jump (s.readReg ra))) ∨ (7 < a.toNat ∧ t = s.badRegister .jne a) := by
  rcases withReg_cases (m := .jne) h with ⟨ra, rfl, hk⟩ | ⟨ha, hk⟩
  · exact .inl ⟨ra, rfl, Host.Outcome.next.inj (h.symm.trans (execJne_regs ra s))⟩
  · exact .inr ⟨ha, Host.Outcome.next.inj hk⟩

theorem execCall_regs (ra : Reg) (s : State) :
    exec (.call (regByte ra)) s = .next (if s.pc.toNat + 2 > 255 then s.raise .addressOutOfRange (some 0x50#8) (s.pc.toNat + 2) else (s.decSp.memWrite s.decSp.sp (narrow (s.pc.toNat + 2))).jump (s.decSp.readReg ra)) := by
  simp only [exec, execCall, withReg_regByte]
  split <;> rfl

theorem execCall_cases {a : Byte} (h : exec (.call a) s = .next t) :
    (∃ ra, a = regByte ra ∧ t = (if s.pc.toNat + 2 > 255 then s.raise .addressOutOfRange (some 0x50#8) (s.pc.toNat + 2) else (s.decSp.memWrite s.decSp.sp (narrow (s.pc.toNat + 2))).jump (s.decSp.readReg ra))) ∨ (7 < a.toNat ∧ t = s.badRegister .call a) := by
  rcases withReg_cases (m := .call) h with ⟨ra, rfl, hk⟩ | ⟨ha, hk⟩
  · exact .inl ⟨ra, rfl, Host.Outcome.next.inj (h.symm.trans (execCall_regs ra s))⟩
  · exact .inr ⟨ha, Host.Outcome.next.inj hk⟩

theorem execRet_eq (s : State) : exec .ret s = .next (s.jump (s.memRead s.sp)).incSp := rfl

theorem execHlt_eq (s : State) : exec .hlt s = .next s.halt := rfl

/-! ### The step -/

theorem step_ok {i : Instr} {rest : List Byte} (hr : s.runState = .running) (hd : decode s.window = .ok (i, rest)) :
    step s = exec i s := by
  simp [step, hr, hd]

theorem step_error {e : DecodeError} (hr : s.runState = .running) (hd : decode s.window = .error e) :
    step s = .next (s.fetchFault e) := by
  simp [step, hr, hd]

/-- The ways a step can answer a next state: an instruction ran, or the fetch stages raised a fault. -/
theorem step_cases (h : step s = .next t) :
    s.runState = .running ∧ ((∃ i rest, decode s.window = .ok (i, rest) ∧ exec i s = .next t) ∨
      (∃ e, decode s.window = .error e ∧ t = s.fetchFault e)) := by
  cases hr : s.runState with
  | idle => simp [step, hr] at h
  | halted => simp [step, hr] at h
  | faulted => simp [step, hr] at h
  | running =>
    refine ⟨rfl, ?_⟩
    rcases hd : decode s.window with e | ⟨i, rest⟩
    · exact .inr ⟨e, rfl, (Host.Outcome.next.inj ((step_error hr hd).symm.trans h)).symm⟩
    · exact .inl ⟨i, rest, rfl, (step_ok hr hd).symm.trans h⟩

/-- The window by the program counter's distance from the end of memory. -/
theorem window_eq (s : State) : s.window =
    (s.byteAt? s.pc.toNat).toList ++ (s.byteAt? (s.pc.toNat + 1)).toList ++ (s.byteAt? (s.pc.toNat + 2)).toList := by
  have hr : List.range Config.maxWidth = [0, 1, 2] := rfl
  unfold State.window
  rw [hr]
  cases h0 : s.byteAt? s.pc.toNat <;> cases h1 : s.byteAt? (s.pc.toNat + 1) <;> cases h2 : s.byteAt? (s.pc.toNat + 2) <;>
    simp [h0, h1, h2]

/-- What stands in the window is the byte of memory at that distance from `pc`. -/
theorem byteAt?_of_window {k : Nat} {b : Byte} (h : s.window[k]? = some b) : s.byteAt? (s.pc.toNat + k) = some b := by
  have up1 : s.byteAt? s.pc.toNat = none → s.byteAt? (s.pc.toNat + 1) = none := by
    simp only [State.byteAt?_eq_none]; omega
  have up2 : s.byteAt? (s.pc.toNat + 1) = none → s.byteAt? (s.pc.toNat + 2) = none := by
    simp only [State.byteAt?_eq_none]; omega
  rw [window_eq] at h
  cases h0 : s.byteAt? s.pc.toNat with
  | none => simp [h0, up1 h0, up2 (up1 h0)] at h
  | some v0 =>
    cases h1 : s.byteAt? (s.pc.toNat + 1) with
    | none =>
      simp only [h0, h1, up2 h1] at h
      match k, h with
      | 0, h => rw [Nat.add_zero, h0]; simpa using h
    | some v1 =>
      cases h2 : s.byteAt? (s.pc.toNat + 2) with
      | none =>
        simp only [h0, h1, h2] at h
        match k, h with
        | 0, h => rw [Nat.add_zero, h0]; simpa using h
        | 1, h => rw [h1]; simpa using h
      | some v2 =>
        simp only [h0, h1, h2] at h
        match k, h with
        | 0, h => rw [Nat.add_zero, h0]; simpa using h
        | 1, h => rw [h1]; simpa using h
        | 2, h => rw [h2]; simpa using h

end Sys2Proof.Machine
end

