-- ==== Sys2Proof/Laws/Flags.lean ====
section
/-! SUPPORT. What a comparison writes to the flag register, said once. -/

namespace Sys2Proof.Machine

/-- The three results of a comparison (41_alu.md R91). -/
theorem compareFlags_cases (p q : Byte) :
    (p = q ∧ compareFlags p q = 0x01#8) ∨ (q.toNat < p.toNat ∧ compareFlags p q = 0x02#8) ∨
    (p.toNat < q.toNat ∧ compareFlags p q = 0x04#8) := by
  unfold compareFlags
  rcases Nat.lt_trichotomy p.toNat q.toNat with h | h | h
  · exact .inr (.inr ⟨h, by simp [show p.toNat ≠ q.toNat by omega, show ¬ q.toNat < p.toNat by omega]⟩)
  · exact .inl ⟨BitVec.eq_of_toNat_eq h, by simp [h]⟩
  · exact .inr (.inl ⟨h, by simp [show p.toNat ≠ q.toNat by omega, h]⟩)

/-- After a comparison E says whether the values were equal (41_alu.md R92). -/
theorem flagE_compareFlags (p q : Byte) : flagE (compareFlags p q) = decide (p = q) := by
  rcases compareFlags_cases p q with ⟨rfl, h⟩ | ⟨h', h⟩ | ⟨h', h⟩
  · simp [h, flagE]
  · have : p ≠ q := by rintro rfl; omega
    simp [h, flagE, this]
  · have : p ≠ q := by rintro rfl; omega
    simp [h, flagE, this]

end Sys2Proof.Machine
end

