-- ==== Sys2Proof/Laws/PerInstr.lean ====
section
/-! SUPPORT. Facts about every instruction as syntax, one lemma per constructor. -/

namespace Sys2Proof.Laws.Layout

/-- An instruction's words are as many bytes as its format is wide (30_encoding.md R63), its opcode byte selects its own entry of the
dispatch table (R66), and its register operands are among its operand bytes. -/
def Statement (i : Instr) : Prop :=
  (encode i).length = i.mnemonic.width ∧ dispatch i.mnemonic.opcode = some i.mnemonic ∧
  ∀ b ∈ i.regOperands, b ∈ i.operands

theorem ldi (a b : Byte) : Statement (.ldi a b) := ⟨rfl, rfl, by simp [Instr.regOperands, Instr.operands]⟩
theorem prn (a : Byte) : Statement (.prn a) := ⟨rfl, rfl, by simp [Instr.regOperands, Instr.operands]⟩
theorem add (a b : Byte) : Statement (.add a b) := ⟨rfl, rfl, by simp [Instr.regOperands, Instr.operands]⟩
theorem mul (a b : Byte) : Statement (.mul a b) := ⟨rfl, rfl, by simp [Instr.regOperands, Instr.operands]⟩
theorem cmp (a b : Byte) : Statement (.cmp a b) := ⟨rfl, rfl, by simp [Instr.regOperands, Instr.operands]⟩
theorem st (a b : Byte) : Statement (.st a b) := ⟨rfl, rfl, by simp [Instr.regOperands, Instr.operands]⟩
theorem push (a : Byte) : Statement (.push a) := ⟨rfl, rfl, by simp [Instr.regOperands, Instr.operands]⟩
theorem pop (a : Byte) : Statement (.pop a) := ⟨rfl, rfl, by simp [Instr.regOperands, Instr.operands]⟩
theorem call (a : Byte) : Statement (.call a) := ⟨rfl, rfl, by simp [Instr.regOperands, Instr.operands]⟩
theorem ret : Statement .ret := ⟨rfl, rfl, by simp [Instr.regOperands, Instr.operands]⟩
theorem jmp (a : Byte) : Statement (.jmp a) := ⟨rfl, rfl, by simp [Instr.regOperands, Instr.operands]⟩
theorem jeq (a : Byte) : Statement (.jeq a) := ⟨rfl, rfl, by simp [Instr.regOperands, Instr.operands]⟩
theorem jne (a : Byte) : Statement (.jne a) := ⟨rfl, rfl, by simp [Instr.regOperands, Instr.operands]⟩
theorem hlt : Statement .hlt := ⟨rfl, rfl, by simp [Instr.regOperands, Instr.operands]⟩

end Sys2Proof.Laws.Layout
end

