-- ==== Sys2Proof/Tests/Slice0.lean ====
section
/-! SUPPORT. Tests of the model on fixed values. Expected results are the vectors of 95_test_vectors.md (their ids stand in the
comments) or hand calculation from the rule named; the witnesses show that the hypotheses of the statements can be met. -/

open Sys2Proof Sys2Proof.Machine Sys2Proof.Claims

namespace Sys2Proof.Tests

/-- A Running state from reset, with bytes at `pc` and some registers set. -/
def running (pc : PcWord) (bytes : List Byte) (regs : List (Reg × Byte) := []) (fl : Byte := 0) : State :=
  regs.foldl (fun s rv => s.writeReg rv.1 rv.2)
    { State.reset with pc := pc, fl := fl, mem := Memory.writeBytes [] pc.toNat bytes, runState := .running }

/-- A fact about the next state of an outcome; false of a stop. -/
def leads (o : StepOutcome) (p : State → Bool) : Bool :=
  match o with
  | .next t => p t
  | .fault _ => false
  | .refused _ => false

/-- The outcome is Faulted with this record, and the data of the state is unchanged. -/
def faults (s : State) (kind : FaultKind) (fpc : PcWord) (opcode : Option Byte) (value : Nat) : Bool :=
  leads (step s) fun t =>
    t == { s with runState := .faulted, faultRec := some { kind := kind, fpc := fpc, opcode := opcode, value := value } }

/-! ### Well-formedness: one ill-formed term for each check -/

theorem test_wf_refuses_index_8 :
    ([.ldi 8 0, .prn 8, .add 8 0, .add 0 8, .mul 8 0, .mul 0 8, .cmp 8 0, .cmp 0 8, .st 8 0, .st 0 8, .push 8, .pop 8, .call 8,
      .jmp 8, .jeq 8, .jne 255] : List Instr).all (fun i => !i.wf) = true := by decide

theorem test_wf_accepts_index_7 :
    ([.ldi 7 255, .prn 7, .add 7 7, .mul 7 7, .cmp 7 7, .st 7 7, .push 7, .pop 7, .call 7, .ret, .jmp 7, .jeq 7, .jne 7, .hlt]
      : List Instr).all (fun i => i.wf) = true := by decide

/-! ### Decoding: a word for every constructor, bit by bit from 30_encoding.md R67 and R72 -/

theorem test_decode_ldi : decode [0b10000010#8, 0b00000000#8, 0b00001000#8] = .ok (.ldi 0 8, []) := by decide
theorem test_decode_prn : decode [0b01000111#8, 0b00000101#8] = .ok (.prn 5, []) := by decide
theorem test_decode_add : decode [0b10100000#8, 0b00000010#8, 0b00000001#8] = .ok (.add 2 1, []) := by decide
theorem test_decode_mul : decode [0b10100010#8, 0b00000011#8, 0b00000100#8] = .ok (.mul 3 4, []) := by decide
theorem test_decode_cmp : decode [0b10100111#8, 0b00000000#8, 0b00000010#8] = .ok (.cmp 0 2, []) := by decide
theorem test_decode_st : decode [0b10000100#8, 0b00000001#8, 0b00000010#8] = .ok (.st 1 2, []) := by decide
theorem test_decode_push : decode [0b01000101#8, 0b00000111#8] = .ok (.push 7, []) := by decide
theorem test_decode_pop : decode [0b01000110#8, 0b00000001#8] = .ok (.pop 1, []) := by decide
theorem test_decode_call : decode [0b01010000#8, 0b00000001#8] = .ok (.call 1, []) := by decide
theorem test_decode_ret : decode [0b00010001#8, 0b11111111#8] = .ok (.ret, [0b11111111#8]) := by decide
theorem test_decode_jmp : decode [0b01010100#8, 0b00000010#8] = .ok (.jmp 2, []) := by decide
theorem test_decode_jeq : decode [0b01010101#8, 0b00000011#8] = .ok (.jeq 3, []) := by decide
theorem test_decode_jne : decode [0b01010110#8, 0b00000011#8] = .ok (.jne 3, []) := by decide
theorem test_decode_hlt : decode [0b00000001#8] = .ok (.hlt, []) := by decide
theorem test_decode_rejects :
    decode [] = .error .noOpcode ∧ decode [0x83#8, 0, 0] = .error (.unknownOpcode 0x83#8) ∧
    decode [0xA0#8] = .error (.missingOperand 0xA0#8 1) ∧ decode [0xA0#8, 0] = .error (.missingOperand 0xA0#8 2) := by decide

/-- Bit 0 is the least significant bit of the first byte; the bits above `nbits` are zero. -/
theorem test_table_word :
    decodeTableWord 24 0xAB0382 = some (.ldi 3 0xAB) ∧ decodeTableWord 8 0xAB0382 = some (.ldi 0 0) ∧
    decodeTableWord 8 0x00 = none := by decide

theorem test_fetch_word_runs_first :
    leads (step (State.reset.withFetchWord 24 0xAB0382)) (fun t => t.readReg 3 == 0xAB#8 && t.pc == 3) = true := by decide

/-! ### One step of each instruction (95_test_vectors.md section 2) -/

/-- V-LDI-2. -/
theorem test_ldi_sp : leads (step (running 0x10 [0x82, 7, 0x10])) (fun t => t.sp == 0x10#8 && t.pc == 0x13) = true := by decide
/-- V-LDI-6. -/
theorem test_ldi_at_top : leads (step (running 0xFD [0x82, 0, 1])) (fun t => t.readReg 0 == 1#8 && t.pc == 256) = true := by decide
/-- V-PRN-3. -/
theorem test_prn_raw : leads (step (running 0x10 [0x47, 5] [(5, 0xFF)])) (fun t => t.out == [0xFF#8] && t.pc == 0x12) = true := by decide
/-- V-PRN-4. -/
theorem test_prn_at_255 : faults (running 0xFF [0x47]) .addressOutOfRange 0xFF (some 0x47) 256 = true := by decide
/-- V-ADD-2. -/
theorem test_add_wraps : leads (step (running 0x10 [0xA0, 0, 1] [(0, 0xFF), (1, 1)])) (fun t => t.readReg 0 == 0#8) = true := by decide
/-- V-ADD-9: `a` is checked first. -/
theorem test_add_bad_a_first : faults (running 0x10 [0xA0, 9, 8]) .registerIndexOutOfRange 0x10 (some 0xA0) 9 = true := by decide
/-- V-MUL-1. -/
theorem test_mul : leads (step (running 0x10 [0xA2, 0, 1] [(0, 8), (1, 9)])) (fun t => t.readReg 0 == 0x48#8 && t.pc == 0x13) = true := by decide
/-- V-MUL-5. -/
theorem test_mul_square : leads (step (running 0x10 [0xA2, 3, 3] [(3, 0x0F)])) (fun t => t.readReg 3 == 0xE1#8) = true := by decide
/-- V-CMP-6: a signed comparison would give L. -/
theorem test_cmp_unsigned : leads (step (running 0x10 [0xA7, 0, 2] [(0, 0x80), (2, 0x7F)])) (fun t => t.fl == 0x02#8) = true := by decide
/-- V-CMP-8: the old flags are lost. -/
theorem test_cmp_replaces : leads (step (running 0x10 [0xA7, 0, 2] [(0, 9), (2, 9)] 4)) (fun t => t.fl == 0x01#8) = true := by decide
/-- V-ST-4: a store into its own operand byte. -/
theorem test_st_own_operand :
    leads (step (running 0x06 [0x84, 0, 1] [(0, 8), (1, 5)])) (fun t => t.memRead 8 == 5#8 && t.pc == 9) = true := by decide
/-- V-ST-5. -/
theorem test_st_bad_b : faults (running 0x10 [0x84, 0, 9]) .registerIndexOutOfRange 0x10 (some 0x84) 9 = true := by decide
/-- V-PUSH-2. -/
theorem test_push_wraps :
    leads (step (running 0x10 [0x45, 1] [(7, 0), (1, 0x11)])) (fun t => t.sp == 0xFF#8 && t.memRead 0xFF == 0x11#8) = true := by decide
/-- V-PUSH-3. -/
theorem test_push_sp : leads (step (running 0x10 [0x45, 7])) (fun t => t.sp == 0xF3#8 && t.memRead 0xF3 == 0xF3#8) = true := by decide
/-- V-POP-2. -/
theorem test_pop_wraps :
    leads (step ((running 0x10 [0x46, 2] [(7, 0xFF)]).memWrite 0xFF 0x11)) (fun t => t.readReg 2 == 0x11#8 && t.sp == 0#8) = true := by decide
/-- V-POP-3. -/
theorem test_pop_sp : leads (step ((running 0x10 [0x46, 7] [(7, 0xF3)]).memWrite 0xF3 0x50)) (fun t => t.sp == 0x51#8) = true := by decide
/-- V-CALL-2: the target is read after the push. -/
theorem test_call_sp :
    leads (step (running 0x00 [0x50, 7])) (fun t => t.sp == 0xF3#8 && t.memRead 0xF3 == 2#8 && t.pc == 0xF3) = true := by decide
/-- V-CALL-5. -/
theorem test_call_at_254 : faults (running 0xFE [0x50, 1]) .addressOutOfRange 0xFE (some 0x50) 256 = true := by decide
/-- V-RET-1. -/
theorem test_ret :
    leads (step ((running 0x10 [0x11] [(7, 0xF3)]).memWrite 0xF3 0x08)) (fun t => t.pc == 0x08 && t.sp == 0xF4#8) = true := by decide
/-- V-RET-3: legal at 255. -/
theorem test_ret_at_255 : leads (step (running 0xFF [0x11] [(7, 0xF3)])) (fun t => t.pc == 0 && t.sp == 0xF4#8) = true := by decide
/-- V-JMP-2. -/
theorem test_jmp_sp : leads (step (running 0x10 [0x54, 7])) (fun t => t.pc == 0xF4) = true := by decide
/-- V-JMP-3. -/
theorem test_jmp_bad : faults (running 0x10 [0x54, 8]) .registerIndexOutOfRange 0x10 (some 0x54) 8 = true := by decide
/-- V-JEQ-1. -/
theorem test_jeq_taken : leads (step (running 0x10 [0x55, 3] [(3, 0x17)] 1)) (fun t => t.pc == 0x17 && t.fl == 1#8) = true := by decide
/-- V-JEQ-5: the index is checked although the jump would not be taken. -/
theorem test_jeq_bad_not_taken : faults (running 0x10 [0x55, 8] [] 4) .registerIndexOutOfRange 0x10 (some 0x55) 8 = true := by decide
/-- V-JNE-3. -/
theorem test_jne_taken_at_reset : leads (step (running 0x10 [0x56, 3] [(3, 0x0C)])) (fun t => t.pc == 0x0C) = true := by decide
/-- V-JNE-2. -/
theorem test_jne_not_taken : leads (step (running 0x10 [0x56, 3] [] 1)) (fun t => t.pc == 0x12) = true := by decide
/-- V-HLT-1. -/
theorem test_hlt : leads (step (running 0x0B [0x01])) (fun t => t.runState == .halted && t.pc == 0x0B) = true := by decide
/-- V-HLT-2. -/
theorem test_hlt_at_255 : leads (step (running 0xFF [0x01])) (fun t => t.runState == .halted && t.pc == 0xFF) = true := by decide
/-- V-F-3. -/
theorem test_unknown_opcode : faults (running 0 [0x83]) .unknownOpcode 0 (some 0x83) 0x83 = true := by decide
/-- V-F-4. -/
theorem test_fetch_at_256 : faults (running 256 []) .addressOutOfRange 256 none 256 = true := by decide
/-- V-CALL-7: the index is checked before the return address. -/
theorem test_call_priority : faults (running 0xFE [0x50, 9]) .registerIndexOutOfRange 0xFE (some 0x50) 9 = true := by decide

/-! ### Witnesses: states and operands that meet the hypotheses of the statements, at the edges of their ranges -/

/-- `At` from a check of each byte. -/
theorem at_of_bytes {s : State} {bytes : List Byte} (hr : s.runState = .running)
    (h : ∀ k : Fin bytes.length, s.byteAt? (s.pc.toNat + k) = some bytes[k]) : At s bytes := by
  refine ⟨hr, fun k b hk => ?_⟩
  obtain ⟨hlt, rfl⟩ := List.getElem?_eq_some_iff.1 hk
  exact h ⟨k, hlt⟩

/-- The hypotheses of a format `R` instruction's statement: it lies at the top of memory, its operand byte lies above it, its operand is 8. -/
def WitnessR (ir : Byte) : Prop :=
  At (running 0xFE [ir, 7]) [ir, 7] ∧
  ((running 0xFF [ir]).runState = .running ∧ (running 0xFF [ir]).byteAt? (running 0xFF [ir]).pc.toNat = some ir ∧
    255 < (running 0xFF [ir]).pc.toNat + 1) ∧
  (At (running 0xFE [ir, 8]) [ir, 8] ∧ 7 < (8 : Byte).toNat)

/-- The same for a format `RR` or `RI` instruction; either operand is 8. -/
def WitnessRR (ir : Byte) : Prop :=
  At (running 0xFD [ir, 7, 7]) [ir, 7, 7] ∧
  ((running 0xFE [ir, 7]).runState = .running ∧ (running 0xFE [ir, 7]).byteAt? (running 0xFE [ir, 7]).pc.toNat = some ir ∧
    255 < (running 0xFE [ir, 7]).pc.toNat + 2) ∧
  (At (running 0xFD [ir, 8, 7]) [ir, 8, 7] ∧ 7 < (8 : Byte).toNat) ∧ At (running 0xFD [ir, 7, 8]) [ir, 7, 8]

theorem witness_LdiLoadsImmediate : WitnessRR 0x82 :=
  ⟨at_of_bytes rfl (by decide), by decide, ⟨at_of_bytes rfl (by decide), by decide⟩, at_of_bytes rfl (by decide)⟩
theorem witness_AddSumsMod256 : WitnessRR 0xA0 :=
  ⟨at_of_bytes rfl (by decide), by decide, ⟨at_of_bytes rfl (by decide), by decide⟩, at_of_bytes rfl (by decide)⟩
theorem witness_MulMultipliesMod256 : WitnessRR 0xA2 :=
  ⟨at_of_bytes rfl (by decide), by decide, ⟨at_of_bytes rfl (by decide), by decide⟩, at_of_bytes rfl (by decide)⟩
theorem witness_CmpWritesOneFlag : WitnessRR 0xA7 :=
  ⟨at_of_bytes rfl (by decide), by decide, ⟨at_of_bytes rfl (by decide), by decide⟩, at_of_bytes rfl (by decide)⟩
theorem witness_StStoresRegister : WitnessRR 0x84 ∧ (running 0x10 [0x84, 0, 1]).mem.wf = true :=
  ⟨⟨at_of_bytes rfl (by decide), by decide, ⟨at_of_bytes rfl (by decide), by decide⟩, at_of_bytes rfl (by decide)⟩, by decide⟩
theorem witness_PrnAppendsRegisterToOut : WitnessR 0x47 :=
  ⟨at_of_bytes rfl (by decide), by decide, at_of_bytes rfl (by decide), by decide⟩
theorem witness_PushStoresBelowSp : WitnessR 0x45 ∧ (running 0x10 [0x45, 1]).mem.wf = true :=
  ⟨⟨at_of_bytes rfl (by decide), by decide, at_of_bytes rfl (by decide), by decide⟩, by decide⟩
theorem witness_PopLoadsFromSp : WitnessR 0x46 :=
  ⟨at_of_bytes rfl (by decide), by decide, at_of_bytes rfl (by decide), by decide⟩
/-- 253 is the last `pc` with a return address inside memory, 254 the first without. -/
theorem witness_CallPushesReturnAddress :
    WitnessR 0x50 ∧ (running 0xFD [0x50, 1]).pc.toNat + 2 ≤ 255 ∧ (running 0xFD [0x50, 1]).mem.wf = true ∧ 255 < (running 0xFE []).pc.toNat + 2 :=
  ⟨⟨at_of_bytes rfl (by decide), by decide, at_of_bytes rfl (by decide), by decide⟩, by decide, by decide, by decide⟩
theorem witness_JmpJumpsToRegister : WitnessR 0x54 :=
  ⟨at_of_bytes rfl (by decide), by decide, at_of_bytes rfl (by decide), by decide⟩
theorem witness_JeqJumpsWhenEqual : WitnessR 0x55 ∧ flagE 1 = true ∧ flagE 4 = false :=
  ⟨⟨at_of_bytes rfl (by decide), by decide, at_of_bytes rfl (by decide), by decide⟩, by decide, by decide⟩
theorem witness_JneJumpsWhenNotEqual : WitnessR 0x56 ∧ flagE 0 = false ∧ flagE 1 = true :=
  ⟨⟨at_of_bytes rfl (by decide), by decide, at_of_bytes rfl (by decide), by decide⟩, by decide, by decide⟩
theorem witness_RetPopsProgramCounter :
    At (running 0xFF [0x11]) [0x11] ∧ (running 256 []).runState = .running ∧ (running 256 []).pc.toNat = 256 :=
  ⟨at_of_bytes rfl (by decide), rfl, rfl⟩
theorem witness_HltHaltsInPlace : At (running 0xFF [0x01]) [0x01] := at_of_bytes rfl (by decide)

theorem witness_DecodeAgreesWithEncode : decode [0x11#8, 0x01#8] = .ok (.ret, [0x01#8]) ∧ [0x11#8, 0x01#8] = encode .ret ++ [0x01#8] := by
  decide
/-- An unassigned opcode in the last byte of memory. -/
theorem witness_UnassignedOpcodeFaults :
    (0x00 : Byte) ∉ rows.map (·.1) ∧ (running 0xFF []).runState = .running ∧
    (running 0xFF []).byteAt? (running 0xFF []).pc.toNat = some 0x00 := by decide
theorem witness_StepRunsDecodedInstruction :
    (running 0xFF [0x01]).runState = .running ∧ decode (running 0xFF [0x01]).window = .ok (.hlt, []) := by decide
theorem witness_StepRunsInstructionInMemory : At (running 0xFE [0x54, 0]) (encode (.jmp 0)) := at_of_bytes rfl (by decide)
theorem witness_StepFollowsPseudocode : (running 0 []).runState = .running := rfl
theorem witness_StepsExactlyWhileRunning : (running 0 [0x01]).runState = .running ∧ ∃ t, step (running 0 [0x01]) = .next t :=
  ⟨rfl, _, rfl⟩
theorem witness_FetchAboveMemoryFaults : (running 256 []).runState = .running ∧ 255 < (running 256 []).pc.toNat := by decide
/-- Each operand byte as the first one above memory. -/
theorem witness_OperandAboveMemoryFaults :
    ((running 0xFF [0x47]).byteAt? 255 = some Mnemonic.prn.opcode ∧ 1 < Mnemonic.prn.width ∧ (running 0xFF [0x47]).pc.toNat + 1 = 256) ∧
    ((running 0xFE [0xA0, 9]).byteAt? 254 = some Mnemonic.add.opcode ∧ 2 < Mnemonic.add.width ∧
      (running 0xFE [0xA0, 9]).pc.toNat + 2 = 256) := by decide
theorem witness_BadRegisterOperandFaults :
    (Instr.add 7 8).regOperands.find? (fun c => decide (7 < c.toNat)) = some 8 ∧ At (running 0xFD [0xA0, 7, 8]) (encode (.add 7 8)) :=
  ⟨by decide, at_of_bytes rfl (by decide)⟩
/-- The one fault of a handler. -/
theorem witness_OnlyCallFaultsInHandler :
    At (running 0xFE [0x50, 1]) (encode (.call 1)) ∧ (Instr.call 1).wf = true ∧
    ∃ t, step (running 0xFE [0x50, 1]) = .next t ∧ t.runState = .faulted :=
  ⟨at_of_bytes rfl (by decide), rfl, _, rfl, rfl⟩
/-- One state for each of the three cases. -/
theorem witness_AddressFaultsInThreeCases :
    ([running 256 [], running 0xFE [0xA0, 0], running 0xFE [0x50, 1]] : List State).all (fun s =>
      decide (s.pc.toNat ≤ 256) && leads (step s) (fun t =>
        t.runState == .faulted && t.faultRec.map (·.kind) == some .addressOutOfRange)) = true := by decide
/-- One fault of each of the three kinds that arise, with its code as the host reads it. -/
theorem witness_FaultsArePrecise :
    ([(running 0 [], 1), (running 0 [0x47, 8], 2), (running 0xFF [0x47], 3)] : List (State × Nat)).all (fun sc =>
      leads (step sc.1) fun t => t.runState == .faulted && t.status.2.map FaultRecord.code == some sc.2) = true := by decide
/-- 253 is the last `pc` at which a CALL completes, 254 the first at which it faults. -/
theorem witness_StepFaultsExactlyWhenNothingCompletes :
    (running 0xFE [0x50, 1]).runState = .running ∧ leads (step (running 0xFE [0x50, 1])) (fun t => t.runState == .faulted) = true ∧
    At (running 0xFD [0x50, 1]) (encode (.call 1)) ∧ (Instr.call 1).wf = true ∧ (running 0xFD [0x50, 1]).pc.toNat + 2 ≤ 255 :=
  ⟨rfl, by decide, at_of_bytes rfl (by decide), by decide, by decide⟩
/-- One event for each change of the run-state. -/
theorem witness_RunStateChangesAsListed :
    leads (onEvent (.host .start) State.reset) (fun t => t.runState == .running) = true ∧
    leads (onEvent .step (running 0 [0x01])) (fun t => t.runState == .halted) = true ∧
    leads (onEvent .step (running 0 [])) (fun t => t.runState == .faulted) = true ∧
    leads (onEvent (.host .reset) (running 0 [])) (fun t => t.runState == .idle) = true ∧ At (running 0 [0x01]) [0x01#8] ∧
    pseudoStep (running 0 []) = .next (faulted (running 0 []) .unknownOpcode (some 0) 0) ∧
    pseudoStep (running 0xFE [0x50, 1]) = .next (faulted (running 0xFE [0x50, 1]) .addressOutOfRange (some 0x50) 256) :=
  ⟨by decide, by decide, by decide, by decide, at_of_bytes rfl (by decide), rfl, rfl⟩
theorem witness_HaltedAndFaultedAreTerminal :
    (∃ t, onEvent (.host .start) (running 0 []).halt = .next t) ∧
    ∃ t, step (running 0 [0x01]) = .next t ∧ t.runState = .halted :=
  ⟨⟨_, rfl⟩, _, rfl, rfl⟩
theorem witness_FlagsWrittenByCmpReadByJumps :
    (∃ t, exec (.add 0 1) (running 0 []) = .next t) ∧ (∃ t, exec (.jeq 0) (running 0 [] [] 2) = .next t) ∧ flagE 4 = flagE 2 :=
  ⟨⟨_, rfl⟩, ⟨_, rfl⟩, by decide⟩
theorem witness_RegistersUsedOnlyAsNamed :
    (∃ t, exec (.add 0 1) (running 0 []) = .next t) ∧ regByte 7 ∉ (Instr.add 0 1).regOperands ∧ ¬ usesStack (.add 0 1) ∧
    (∃ t, exec (.push (regByte 7)) (running 0 []) = .next t) ∧ (∃ t, exec (.pop (regByte 6)) (running 0 []) = .next t) ∧
    (running 0xFD []).pc.toNat + 2 ≤ 255 ∧ (∃ t, exec (.call (regByte 7)) (running 0xFD []) = .next t) ∧ ∃ t, exec .ret (running 0 []) = .next t :=
  ⟨⟨_, rfl⟩, by decide, by simp [usesStack], ⟨_, rfl⟩, ⟨_, rfl⟩, by decide, ⟨_, rfl⟩, _, rfl⟩
theorem witness_RegistersChangeOnlyAsDestination :
    (∃ t, exec (.add 0 1) (running 0 []) = .next t) ∧
    (∀ b, Instr.add 0 1 ≠ .ldi (regByte 1) b ∧ Instr.add 0 1 ≠ .add (regByte 1) b ∧ Instr.add 0 1 ≠ .mul (regByte 1) b) ∧
    Instr.add 0 1 ≠ .pop (regByte 1) ∧ ((1 : Reg) = 7 → ¬ usesStack (.add 0 1)) :=
  ⟨⟨_, rfl⟩, fun b => ⟨by simp, by simp [regByte], by simp⟩, by simp, by simp [usesStack]⟩
/-- The bytes beside the ones ST and PUSH store. -/
theorem witness_MemoryChangesOnlyWhereStored :
    (∃ t, exec (.st 0 1) (running 0 [] [(0, 0x80)]) = .next t) ∧ 0x81 ≠ ((running 0 [] [(0, 0x80)]).readReg 0).toNat ∧
    (∃ t, exec (.push 0) (running 0 []) = .next t) ∧ 0xF2 ≠ ((running 0 []).readReg 7 - 1).toNat :=
  ⟨⟨_, rfl⟩, by decide, ⟨_, rfl⟩, by decide⟩
theorem witness_HandlersReadOnlyTopOfStack :
    (∃ t, exec .ret (running 0 [0x11]) = .next t) ∧
    Memory.read [] ((running 0 [0x11]).readReg 7).toNat = (running 0 [0x11]).mem.read ((running 0 [0x11]).readReg 7).toNat :=
  ⟨⟨_, rfl⟩, by decide⟩
theorem witness_OutGrowsOnlyByPrn : ∃ t, step (running 0 [0x47, 7]) = .next t ∧ t.out = [0xF4#8] := ⟨_, rfl, by decide⟩
/-- V-JEQ-6: the advance to 256. -/
theorem witness_ProgramCounterReaches256OnlyByAdvance :
    (running 0xFE [0x55, 3]).pc.toNat ≤ 255 ∧ At (running 0xFE [0x55, 3]) (encode (.jeq 3)) ∧
    fallsThrough (.jeq 3) (running 0xFE [0x55, 3]) ∧
    ∃ t, step (running 0xFE [0x55, 3]) = .next t ∧ t.runState ≠ .faulted ∧ t.pc.toNat = 256 :=
  ⟨by decide, at_of_bytes rfl (by decide), rfl, _, rfl, by decide, by decide⟩
theorem witness_StepKeepsInvariant : (running 0xFE [0x50, 1]).Inv ∧ ∃ t, step (running 0xFE [0x50, 1]) = .next t := ⟨by decide, _, rfl⟩
/-- A load over an earlier one, and a reset out of Faulted. -/
theorem witness_EventKeepsInvariant :
    (State.mk State.reset.regs 0 0 [(1, 5#8)] [] .idle none).Inv ∧
    leads (onEvent (.host (.load [0x01#8, 0#8])) (State.mk State.reset.regs 0 0 [(1, 5#8)] [] .idle none)) (fun t => t.mem == [(0, 1#8)]) = true ∧
    ((running 0 []).raise .unknownOpcode (some 0) 0).Inv ∧
    leads (onEvent (.host .reset) ((running 0 []).raise .unknownOpcode (some 0) 0)) (fun t => t == State.reset) = true := by
  decide
theorem witness_ReachableStatesMeetInvariant : Reachable (State.reset.start) := .event (.host .start) .reset rfl
theorem witness_ExactlyOneFlagAfterCmp :
    (∃ t, exec (.cmp (regByte 7) (regByte 0)) (running 0 []) = .next t) ∧ Reachable State.reset := ⟨⟨_, rfl⟩, .reset⟩
theorem witness_MemoriesThatReadAlikeAreEqual : Memory.wf [(0, 1#8), (255, 2#8)] = true ∧ Memory.wf [(0, 0#8)] = false ∧
    Memory.wf [(1, 1#8), (0, 1#8)] = false ∧ Memory.wf [(256, 1#8)] = false := by decide
theorem witness_StoreIsSeenByFetch :
    (running 0 [] [(0, 0xFF), (1, 1)]).mem.wf = true ∧ ∃ t, exec (.st (regByte 0) (regByte 1)) (running 0 [] [(0, 0xFF), (1, 1)]) = .next t :=
  ⟨by decide, _, rfl⟩
/-- The four cases of the round trip, with nothing between PUSH and POP; `sp` is 0 before the PUSH, so both wrap. -/
theorem witness_PushThenPop :
    ([(7, 7), (0, 0), (0, 1), (7, 0), (0, 7)] : List (Reg × Reg)).all (fun ab =>
      (running 0 [] [(7, 0), (0, 5)]).mem.wf &&
      leads (exec (.push (regByte ab.1)) (running 0 [] [(7, 0), (0, 5)])) fun t => leads (exec (.pop (regByte ab.2)) t) fun _ => true) = true := by
  decide
theorem witness_CallThenRet :
    (running 0xFD [] [(1, 0x40)]).mem.wf = true ∧ (running 0xFD []).pc.toNat + 2 ≤ 255 ∧
    leads (exec (.call (regByte 1)) (running 0xFD [] [(1, 0x40)])) (fun t => leads (exec .ret t) fun v => v.pc == 0xFF) = true := by decide
theorem witness_LoadPlacesProgramAtZero :
    State.reset.runState = .idle ∧ (List.replicate 256 (0x01#8)).length ≤ 256 ∧ State.reset.mem.wf = true ∧
    (running 0 []).runState ≠ .idle ∧ 256 < (List.replicate 257 (0x01#8)).length :=
  ⟨rfl, Nat.le_of_eq List.length_replicate, rfl, by decide, Nat.lt_of_lt_of_eq (by decide) List.length_replicate.symm⟩
theorem witness_StartRunsFromZero : State.reset.runState = .idle ∧ (running 0 []).runState ≠ .idle ∧ Reachable State.reset :=
  ⟨rfl, by decide, .reset⟩
theorem witness_FirstStepRunsFirstInstruction :
    (encode .hlt ++ []).length ≤ 256 ∧
    ∃ s t, hostAct (.load (encode .hlt ++ [])) State.reset = .next s ∧ hostAct .start s = .next t :=
  ⟨by decide, _, _, rfl, rfl⟩
theorem witness_RunEndsInOneOfThreeWays : (running 0 [0x54, 0]).runState = .running ∧ Hangs (running 0 [0x54, 0]) := by
  refine ⟨rfl, fun n => ⟨running 0 [0x54, 0], ?_, rfl⟩⟩
  induction n with
  | zero => rfl
  | succ n ih => exact ih
theorem witness_FinalStateNamesStop :
    (∃ t, EndsHalted (running 0xFF [0x01]) t) ∧ ∃ t, EndsFaulted (running 0xFF []) t := ⟨⟨_, 1, rfl, rfl⟩, _, 1, rfl, rfl⟩

end Sys2Proof.Tests
end

section
/-! What an instruction, the fetch stages and the host can do, said once. `Effect s i t` lists the ways `exec i s` can end in `t`, one
rule per row of the dispatch table and outcome, and `exec_eq_next_iff` says that the rules are exactly the meanings. -/

namespace Sys2Proof.Machine

/-- The first operand byte that selects no register, the one the operand check faults on (60_exceptions.md R108). -/
abbrev firstBad (operands : List Byte) : Option Byte := operands.find? fun c => decide (7 < c.toNat)

/-- The ways an instruction ends. A control transfer has one rule for each of its outcomes; every instruction with a register operand
has `badRegister` beside its own rules. -/
inductive Effect (s : State) : Instr → State → Prop where
  | badRegister {i : Instr} {c : Byte} (bad : firstBad i.regOperands = some c) : Effect s i (s.badRegister i.mnemonic c)
  | ldi (a : Reg) (b : Byte) : Effect s (.ldi (regByte a) b) ((s.writeReg a b).advance 3)
  | prn (a : Reg) : Effect s (.prn (regByte a)) ((s.emit (s.readReg a)).advance 2)
  | add (a b : Reg) :
    Effect s (.add (regByte a) (regByte b)) ((s.writeReg a (aluAdd (s.readReg a) (s.readReg b))).advance 3)
  | mul (a b : Reg) :
    Effect s (.mul (regByte a) (regByte b)) ((s.writeReg a (aluMul (s.readReg a) (s.readReg b))).advance 3)
  | cmp (a b : Reg) :
    Effect s (.cmp (regByte a) (regByte b)) (State.advance { s with fl := compareFlags (s.readReg a) (s.readReg b) } 3)
  | st (a b : Reg) : Effect s (.st (regByte a) (regByte b)) ((s.memWrite (s.readReg a) (s.readReg b)).advance 3)
  | push (a : Reg) : Effect s (.push (regByte a)) ((s.decSp.memWrite s.decSp.sp (s.decSp.readReg a)).advance 2)
  | pop (a : Reg) : Effect s (.pop (regByte a)) ((s.writeReg a (s.memRead s.sp)).incSp.advance 2)
  | call (a : Reg) (fits : s.pc.toNat + 2 ≤ 255) :
    Effect s (.call (regByte a)) ((s.decSp.memWrite s.decSp.sp (narrow (s.pc.toNat + 2))).jump (s.decSp.readReg a))
  | callAbove (a : Reg) (above : 255 < s.pc.toNat + 2) :
    Effect s (.call (regByte a)) (s.raise .addressOutOfRange (some 0x50#8) (s.pc.toNat + 2))
  | ret : Effect s .ret (s.jump (s.memRead s.sp)).incSp
  | jmp (a : Reg) : Effect s (.jmp (regByte a)) (s.jump (s.readReg a))
  | jeqTaken (a : Reg) (equal : flagE s.fl = true) : Effect s (.jeq (regByte a)) (s.jump (s.readReg a))
  | jeqNotTaken (a : Reg) (unequal : flagE s.fl = false) : Effect s (.jeq (regByte a)) (s.advance 2)
  | jneTaken (a : Reg) (unequal : flagE s.fl = false) : Effect s (.jne (regByte a)) (s.jump (s.readReg a))
  | jneNotTaken (a : Reg) (equal : flagE s.fl = true) : Effect s (.jne (regByte a)) (s.advance 2)
  | hlt : Effect s .hlt s.halt

theorem firstBad_one {a : Byte} (h : 7 < a.toNat) : firstBad [a] = some a := by simp [h]

theorem firstBad_two {a b c : Byte} (h : 7 < a.toNat ∧ c = a ∨ a.toNat ≤ 7 ∧ 7 < b.toNat ∧ c = b) :
    firstBad [a, b] = some c := by
  rcases h with ⟨ha, rfl⟩ | ⟨ha, hb, rfl⟩
  · simp [ha]
  · simp [hb, Nat.not_lt.2 ha]

/-- The operand check of a format `R` or `RI` instruction that fails. -/
theorem withReg_of_firstBad {m : Mnemonic} {a c : Byte} {s : State} {k : Reg → StepOutcome} (h : firstBad [a] = some c) :
    withReg m a s k = .next (s.badRegister m c) := by
  obtain ⟨ha, rfl⟩ : 7 < a.toNat ∧ a = c := by simpa using h
  exact withReg_bad s k ha

/-- The operand checks of a format `RR` instruction of which one fails. -/
theorem withRegs_of_firstBad {m : Mnemonic} {a b c : Byte} {s : State} {k : Reg → Reg → StepOutcome}
    (h : firstBad [a, b] = some c) : withRegs m a b s k = .next (s.badRegister m c) := by
  rcases regByte_cases a with ⟨r, rfl⟩ | ha
  · have good : ¬ 7 < (regByte r).toNat := by have := r.isLt; rw [regByte_toNat]; omega
    rw [withRegs, withReg_regByte]
    exact withReg_of_firstBad (by simpa [good] using h)
  · obtain rfl : a = c := by simpa [ha] using h
    exact withReg_bad s _ ha

/-- A register operand above 7 faults before the handler runs (40_execution_cycle.md R78, 60_exceptions.md R108). -/
theorem exec_of_firstBad {i : Instr} {c : Byte} (s : State) (h : firstBad i.regOperands = some c) :
    exec i s = .next (s.badRegister i.mnemonic c) := by
  cases i with
  | ret | hlt => cases h
  | ldi | prn | push | pop | call | jmp | jeq | jne => exact withReg_of_firstBad h
  | add | mul | cmp | st => exact withRegs_of_firstBad h

theorem Effect.exec_eq {s t : State} {i : Instr} (h : Effect s i t) : exec i s = .next t := by
  cases h with
  | badRegister bad => exact exec_of_firstBad s bad
  | ldi a b => exact execLdi_regs a b s
  | prn a => exact execPrn_regs a s
  | add a b => exact execAdd_regs a b s
  | mul a b => exact execMul_regs a b s
  | cmp a b => exact execCmp_regs a b s
  | st a b => exact execSt_regs a b s
  | push a => exact execPush_regs a s
  | pop a => exact execPop_regs a s
  | call a fits => rw [execCall_regs, if_neg (Nat.not_lt.2 fits)]
  | callAbove a above => rw [execCall_regs, if_pos above]
  | ret => exact execRet_eq s
  | jmp a => exact execJmp_regs a s
  | jeqTaken a equal => rw [execJeq_regs, if_pos equal]
  | jeqNotTaken a unequal => simp [execJeq_regs, unequal]
  | jneTaken a unequal => simp [execJne_regs, unequal]
  | jneNotTaken a equal => rw [execJne_regs, if_pos equal]
  | hlt => exact execHlt_eq s

/-- The one bad operand of a format `R` or `RI` instruction. -/
theorem Effect.badOne {s : State} {i : Instr} {a : Byte} (hi : i.regOperands = [a]) (ha : 7 < a.toNat) :
    Effect s i (s.badRegister i.mnemonic a) := .badRegister (hi ▸ firstBad_one ha)

/-- The bad operand of a format `RR` instruction that is checked first. -/
theorem Effect.badTwo {s : State} {i : Instr} {a b c : Byte} (hi : i.regOperands = [a, b])
    (hc : 7 < a.toNat ∧ c = a ∨ a.toNat ≤ 7 ∧ 7 < b.toNat ∧ c = b) : Effect s i (s.badRegister i.mnemonic c) :=
  .badRegister (hi ▸ firstBad_two hc)

theorem effect_of_exec {s t : State} {i : Instr} (h : exec i s = .next t) : Effect s i t := by
  cases i with
  | ldi a b => rcases execLdi_cases h with ⟨ra, rfl, rfl⟩ | ⟨ha, rfl⟩; exacts [.ldi ra b, .badOne rfl ha]
  | prn a => rcases execPrn_cases h with ⟨ra, rfl, rfl⟩ | ⟨ha, rfl⟩; exacts [.prn ra, .badOne rfl ha]
  | add a b => rcases execAdd_cases h with ⟨ra, rb, rfl, rfl, rfl⟩ | ⟨c, hc, rfl⟩; exacts [.add ra rb, .badTwo rfl hc]
  | mul a b => rcases execMul_cases h with ⟨ra, rb, rfl, rfl, rfl⟩ | ⟨c, hc, rfl⟩; exacts [.mul ra rb, .badTwo rfl hc]
  | cmp a b => rcases execCmp_cases h with ⟨ra, rb, rfl, rfl, rfl⟩ | ⟨c, hc, rfl⟩; exacts [.cmp ra rb, .badTwo rfl hc]
  | st a b => rcases execSt_cases h with ⟨ra, rb, rfl, rfl, rfl⟩ | ⟨c, hc, rfl⟩; exacts [.st ra rb, .badTwo rfl hc]
  | push a => rcases execPush_cases h with ⟨ra, rfl, rfl⟩ | ⟨ha, rfl⟩; exacts [.push ra, .badOne rfl ha]
  | pop a => rcases execPop_cases h with ⟨ra, rfl, rfl⟩ | ⟨ha, rfl⟩; exacts [.pop ra, .badOne rfl ha]
  | jmp a => rcases execJmp_cases h with ⟨ra, rfl, rfl⟩ | ⟨ha, rfl⟩; exacts [.jmp ra, .badOne rfl ha]
  | call a =>
    rcases execCall_cases h with ⟨ra, rfl, rfl⟩ | ⟨ha, rfl⟩
    · split
      · next above => exact .callAbove ra above
      · next fits => exact .call ra (Nat.not_lt.1 fits)
    · exact .badOne rfl ha
  | jeq a =>
    rcases execJeq_cases h with ⟨ra, rfl, rfl⟩ | ⟨ha, rfl⟩
    · split
      · next equal => exact .jeqTaken ra equal
      · next unequal => exact .jeqNotTaken ra (Bool.eq_false_iff.2 unequal)
    · exact .badOne rfl ha
  | jne a =>
    rcases execJne_cases h with ⟨ra, rfl, rfl⟩ | ⟨ha, rfl⟩
    · split
      · next equal => exact .jneNotTaken ra equal
      · next unequal => exact .jneTaken ra (Bool.eq_false_iff.2 unequal)
    · exact .badOne rfl ha
  | ret => obtain rfl := Host.Outcome.next.inj h; exact .ret
  | hlt => obtain rfl := Host.Outcome.next.inj h; exact .hlt

/-- The rules of `Effect` are exactly the meanings. -/
theorem exec_eq_next_iff {s t : State} {i : Instr} : exec i s = .next t ↔ Effect s i t :=
  ⟨effect_of_exec, Effect.exec_eq⟩

/-! ### Fetch faults and host actions -/

/-- The ways a host action answers a next state (70_reset_and_hazards.md section 2). -/
theorem hostAct_cases {a : HostAction} {s t : State} (h : hostAct a s = .next t) :
    (a = .reset ∧ t = State.reset) ∨
    (∃ p, a = .load p ∧ s.runState = .idle ∧ t = { s with mem := s.mem.writeBytes 0 p }) ∨
    (a = .start ∧ s.runState = .idle ∧ t = { s with runState := .running }) ∨
    (a = .start ∧ s.runState ≠ .idle ∧ t = s) := by
  cases a with
  | reset => exact .inl ⟨rfl, (Host.Outcome.next.inj h).symm⟩
  | load p =>
    simp only [hostAct, State.load] at h
    split at h
    · cases h
    · next idle =>
      split at h
      · cases h
      · exact .inr (.inl ⟨p, rfl, not_not.1 idle, (Host.Outcome.next.inj h).symm⟩)
  | start =>
    obtain rfl := Host.Outcome.next.inj h
    unfold State.start
    split
    · next idle => exact .inr (.inr (.inl ⟨rfl, idle, rfl⟩))
    · next idle => exact .inr (.inr (.inr ⟨rfl, idle, rfl⟩))

/-- What the fetch stages raise is a fault and nothing else (40_execution_cycle.md R81). -/
theorem fetchFault_eq_raise (s : State) (e : DecodeError) : ∃ k o n, s.fetchFault e = s.raise k o n := by
  cases e <;> exact ⟨_, _, _, rfl⟩

end Sys2Proof.Machine
end

section
/-! The flags: who writes `fl`, who reads it, and what it can hold (10_state.md section 4). -/

namespace Sys2Proof.Machine

/-- Only CMP writes `fl`, and it writes the result of the comparison (10_state.md R31, 41_alu.md R91). -/
theorem Effect.fl_eq {s t : State} {i : Instr} (h : Effect s i t) :
    t.fl = s.fl ∨ ∃ a b, i = .cmp (regByte a) (regByte b) ∧ t.fl = compareFlags (s.readReg a) (s.readReg b) := by
  cases h with
  | cmp a b => exact .inr ⟨a, b, rfl, rfl⟩
  | _ => exact .inl rfl

/-- Only JEQ and JNE read `fl`, and they read only E: with another `fl` of that E the effect is the same outside `fl`
(10_state.md R31). -/
theorem Effect.with_fl {s t : State} {i : Instr} {f : Byte} (h : Effect s i t)
    (hE : (∀ a, i ≠ .jeq a ∧ i ≠ .jne a) ∨ flagE f = flagE s.fl) :
    ∃ t', Effect { s with fl := f } i t' ∧ { t' with fl := t.fl } = t := by
  have same {a : Byte} (hi : i = .jeq a ∨ i = .jne a) : flagE f = flagE s.fl :=
    hE.resolve_left fun none => hi.elim (none a).1 (none a).2
  cases h with
  | badRegister bad => exact ⟨_, .badRegister bad, rfl⟩
  | ldi a b => exact ⟨_, .ldi a b, rfl⟩
  | prn a => exact ⟨_, .prn a, rfl⟩
  | add a b => exact ⟨_, .add a b, rfl⟩
  | mul a b => exact ⟨_, .mul a b, rfl⟩
  | cmp a b => exact ⟨_, .cmp a b, rfl⟩
  | st a b => exact ⟨_, .st a b, rfl⟩
  | push a => exact ⟨_, .push a, rfl⟩
  | pop a => exact ⟨_, .pop a, rfl⟩
  | call a fits => exact ⟨_, .call a fits, rfl⟩
  | callAbove a above => exact ⟨_, .callAbove a above, rfl⟩
  | ret => exact ⟨_, .ret, rfl⟩
  | jmp a => exact ⟨_, .jmp a, rfl⟩
  | jeqTaken a equal => exact ⟨_, .jeqTaken a ((same (.inl rfl)).trans equal), rfl⟩
  | jeqNotTaken a unequal => exact ⟨_, .jeqNotTaken a ((same (.inl rfl)).trans unequal), rfl⟩
  | jneTaken a unequal => exact ⟨_, .jneTaken a ((same (.inr rfl)).trans unequal), rfl⟩
  | jneNotTaken a equal => exact ⟨_, .jneNotTaken a ((same (.inr rfl)).trans equal), rfl⟩
  | hlt => exact ⟨_, .hlt, rfl⟩

/-- Settles O32: the rules of `Effect` name `fl` only for CMP's result and the two conditional jumps' E. -/
theorem flagsWrittenByCmpReadByJumps : Obligations.FlagsWrittenByCmpReadByJumps := by
  refine ⟨fun i s t h notCmp => ?_, fun i s t f h hE => ?_⟩
  · exact (effect_of_exec h).fl_eq.resolve_right fun ⟨a, b, hi, _⟩ => notCmp _ _ hi
  · obtain ⟨t', effect, eq⟩ := (effect_of_exec h).with_fl hE
    exact ⟨t', effect.exec_eq, eq⟩

/-- Over any event `fl` is kept, reset to 0, or written by a comparison. -/
theorem onEvent_fl {e : Event} {s t : State} (h : onEvent e s = .next t) :
    t.fl = s.fl ∨ t.fl = 0x00#8 ∨ ∃ p q, t.fl = compareFlags p q := by
  cases e with
  | step =>
    obtain ⟨-, ⟨i, rest, -, hx⟩ | ⟨e, -, rfl⟩⟩ := step_cases h
    · exact (effect_of_exec hx).fl_eq.imp_right fun ⟨a, b, _, hf⟩ => .inr ⟨_, _, hf⟩
    · obtain ⟨k, o, n, he⟩ := fetchFault_eq_raise s e
      exact .inl (he ▸ s.raise_fl k o n)
  | host a =>
    obtain ⟨-, rfl⟩ | ⟨p, -, -, rfl⟩ | ⟨-, -, rfl⟩ | ⟨-, -, rfl⟩ := hostAct_cases h
    · exact .inr (.inl rfl)
    all_goals exact .inl rfl

/-- The four bytes `fl` can hold (10_state.md R33). -/
theorem Reachable.fl_mem {s : State} (h : Reachable s) : s.fl = 0x00#8 ∨ s.fl = 0x01#8 ∨ s.fl = 0x02#8 ∨ s.fl = 0x04#8 := by
  induction h with
  | reset => exact .inl rfl
  | event e _ he ih =>
    obtain hf | hf | ⟨p, q, hf⟩ := onEvent_fl he
    · rwa [hf]
    · exact .inl hf
    · rw [hf]
      exact .inr ((compareFlags_cases p q).imp And.right (Or.imp And.right And.right))

/-- Settles O42: a comparison writes one of three bytes, each with one flag, and no event writes another byte than those and 0. -/
theorem exactlyOneFlagAfterCmp : Obligations.ExactlyOneFlagAfterCmp := by
  refine ⟨fun a b s t h => ?_, fun s h => h.fl_mem⟩
  rw [execCmp_regs] at h
  cases h
  obtain ⟨-, hf⟩ | ⟨-, hf⟩ | ⟨-, hf⟩ := compareFlags_cases (s.readReg a) (s.readReg b) <;>
    simp [hf, flagE, flagG, flagL]

end Sys2Proof.Machine
end

section
/-! The general registers: an instruction uses the registers it names, and PUSH, POP, CALL and RET `sp` besides (10_state.md R21). -/

namespace Sys2Proof.Machine

open Sys2Proof.Claims

section WriteRegCommutes
/-! A write to register `r` and a register operation that neither reads nor writes `r` can change places; these lemmas move the write
outside. The operations on the other fields do so by `rfl`. -/

variable (s : State) {r : Reg} (v : Byte)

theorem State.writeReg_writeReg_comm {q : Reg} (w : Byte) (h : q ≠ r) :
    (s.writeReg r v).writeReg q w = (s.writeReg q w).writeReg r v := by
  have : (r : Nat) ≠ q := fun e => h (Fin.ext e.symm)
  simp only [State.writeReg, Vector.set_comm _ _ this]

theorem State.writeReg_sp (h : r ≠ 7) : (s.writeReg r v).sp = s.sp := State.readReg_writeReg_other s v h.symm

theorem State.writeReg_decSp (h : r ≠ 7) : (s.writeReg r v).decSp = s.decSp.writeReg r v := by
  rw [State.decSp, State.writeReg_sp s v h]
  exact State.writeReg_writeReg_comm s v _ h.symm

theorem State.writeReg_incSp (h : r ≠ 7) : (s.writeReg r v).incSp = s.incSp.writeReg r v := by
  rw [State.incSp, State.writeReg_sp s v h]
  exact State.writeReg_writeReg_comm s v _ h.symm

end WriteRegCommutes

/-- A register that an instruction neither names nor uses as `sp` has no part in its effect (10_state.md R21). -/
theorem Effect.with_reg {s t : State} {i : Instr} {r : Reg} (v : Byte) (h : Effect s i t) (hr : regByte r ∉ i.regOperands)
    (hsp : r = 7 → ¬ usesStack i) : Effect (s.writeReg r v) i (t.writeReg r v) := by
  have other {q : Reg} (hq : regByte q ∈ i.regOperands) : q ≠ r := fun e => hr (e ▸ hq)
  have read {q : Reg} (hq : regByte q ∈ i.regOperands) (u : State) : (u.writeReg r v).readReg q = u.readReg q :=
    u.readReg_writeReg_other v (other hq)
  have write {q : Reg} (hq : regByte q ∈ i.regOperands) (w : Byte) :
      (s.writeReg r v).writeReg q w = (s.writeReg q w).writeReg r v := s.writeReg_writeReg_comm v w (other hq)
  have notSp (hi : usesStack i) : r ≠ 7 := fun e => hsp e hi
  have fst {b : Byte} {l : List Byte} : b ∈ b :: l := List.mem_cons_self
  have snd {b c : Byte} : c ∈ [b, c] := List.mem_cons_of_mem b fst
  have toState {u : State} (e : u = t.writeReg r v) (hu : Effect (s.writeReg r v) i u) :
      Effect (s.writeReg r v) i (t.writeReg r v) := e ▸ hu
  cases h with
  | badRegister bad => exact .badRegister bad
  | ldi a b => exact toState (by rw [write fst]; rfl) (.ldi a b)
  | prn a => exact toState (by rw [read fst]; rfl) (.prn a)
  | add a b => exact toState (by rw [read fst, read snd, write fst]; rfl) (.add a b)
  | mul a b => exact toState (by rw [read fst, read snd, write fst]; rfl) (.mul a b)
  | cmp a b => exact toState (by rw [read fst, read snd]; rfl) (.cmp a b)
  | st a b => exact toState (by rw [read fst, read snd]; rfl) (.st a b)
  | push a =>
    have h7 := notSp (.inl ⟨_, rfl⟩)
    exact toState (by rw [State.writeReg_decSp s v h7, State.writeReg_sp _ v h7, read fst]; rfl) (.push a)
  | pop a =>
    have h7 := notSp (.inr (.inl ⟨_, rfl⟩))
    exact toState (by rw [write fst, State.writeReg_incSp _ v h7, State.writeReg_sp s v h7]; rfl) (.pop a)
  | call a fits =>
    have h7 := notSp (.inr (.inr (.inl ⟨_, rfl⟩)))
    exact toState (by rw [State.writeReg_decSp s v h7, State.writeReg_sp _ v h7, read fst]; rfl) (.call a fits)
  | callAbove a above => exact .callAbove a above
  | ret =>
    have h7 := notSp (.inr (.inr (.inr rfl)))
    exact toState (by rw [State.writeReg_sp s v h7]; exact State.writeReg_incSp (s.jump (s.memRead s.sp)) v h7) .ret
  | jmp a => exact toState (by rw [read fst]; rfl) (.jmp a)
  | jeqTaken a equal => exact toState (by rw [read fst]; rfl) (.jeqTaken a equal)
  | jeqNotTaken a unequal => exact .jeqNotTaken a unequal
  | jneTaken a unequal => exact toState (by rw [read fst]; rfl) (.jneTaken a unequal)
  | jneNotTaken a equal => exact .jneNotTaken a equal
  | hlt => exact .hlt

/-- Settles O33: the rules of `Effect` read and write only the registers the instruction names, and `sp` in the stack instructions. -/
theorem registersUsedOnlyAsNamed : Obligations.RegistersUsedOnlyAsNamed := by
  refine ⟨fun i s t r v h hr hsp => ((effect_of_exec h).with_reg v hr hsp).exec_eq, fun a s t h => ?push,
    fun a s t ha h => ?pop, fun a s t fits h => ?call, fun s t h => ?ret⟩
  case push =>
    rw [execPush_regs] at h
    cases h
    exact s.decSp_sp
  case pop =>
    rw [execPop_regs] at h
    cases h
    exact ((s.writeReg a (s.memRead s.sp)).incSp_sp).trans (by rw [State.writeReg_sp s _ ha]; rfl)
  case call =>
    rw [execCall_regs, if_neg (Nat.not_lt.2 fits)] at h
    cases h
    exact s.decSp_sp
  case ret =>
    rw [execRet_eq] at h
    cases h
    exact (s.jump (s.memRead s.sp)).incSp_sp

end Sys2Proof.Machine
end

section
/-! The step against the pseudocode of 40_execution_cycle.md R83: fetch, dispatch and operand fetch give the row's instruction on the
bytes after the opcode, and the row's operand check is the one inside each meaning. -/

namespace Sys2Proof.Machine

open Sys2Proof.Claims

/-- The instruction a row of the dispatch table builds from two operand bytes; bytes the format does not have are ignored. -/
def rowInstr : Mnemonic → Byte → Byte → Instr
  | .ldi, a, b => .ldi a b
  | .prn, a, _ => .prn a
  | .add, a, b => .add a b
  | .mul, a, b => .mul a b
  | .cmp, a, b => .cmp a b
  | .st, a, b => .st a b
  | .push, a, _ => .push a
  | .pop, a, _ => .pop a
  | .call, a, _ => .call a
  | .ret, _, _ => .ret
  | .jmp, a, _ => .jmp a
  | .jeq, a, _ => .jeq a
  | .jne, a, _ => .jne a
  | .hlt, _, _ => .hlt

theorem rowInstr_mnemonic (m : Mnemonic) (a b : Byte) : (rowInstr m a b).mnemonic = m := by
  cases m <;> rfl

/-- Format by format, the operand bytes a row's instruction has checked (30_encoding.md R63, R64). -/
theorem rowInstr_regOperands (m : Mnemonic) (a b : Byte) : (rowInstr m a b).regOperands =
    match m.format with
    | .Z => []
    | .R | .RI => [a]
    | .RR => [a, b] := by
  cases m <;> rfl

/-- The pseudocode's table selects the entry that the decoder's does, with the handler `rowInstr`. -/
theorem rows_find (ir : Byte) : rows.find? (fun row => row.1 == ir) =
    (dispatch ir).map fun m => (m.opcode, m.format, m.width, rowInstr m) := by
  have table : rows = allMnemonics.map fun m => (m.opcode, m.format, m.width, rowInstr m) := rfl
  rw [table, List.find?_map]
  rfl

/-! ### Operand fetch -/

theorem decodeOperands_none {m : Mnemonic} (hw : 2 ≤ m.width) : decodeOperands m [] = .error (.missingOperand m.opcode 1) := by
  cases m with
  | ret | hlt => exact absurd hw (by decide)
  | _ => rfl

theorem decodeOperands_one {m : Mnemonic} (hw : 3 ≤ m.width) (a : Byte) :
    decodeOperands m [a] = .error (.missingOperand m.opcode 2) := by
  cases m with
  | ldi | add | mul | cmp | st => rfl
  | _ => exact absurd hw (by decide)

/-- With every operand byte of its width there, a row gives its instruction on them. -/
theorem decodeOperands_whole {m : Mnemonic} {bytes : List Byte} {a b : Byte} (ha : 2 ≤ m.width → bytes[0]? = some a)
    (hb : 3 ≤ m.width → bytes[1]? = some b) : ∃ rest, decodeOperands m bytes = .ok (rowInstr m a b, rest) := by
  cases m with
  | ret | hlt => exact ⟨bytes, rfl⟩
  | prn | push | pop | call | jmp | jeq | jne =>
    match bytes, ha (by decide) with
    | _ :: rest, rfl => exact ⟨rest, rfl⟩
  | ldi | add | mul | cmp | st =>
    match bytes, ha (by decide), hb (by decide) with
    | _ :: _ :: rest, rfl, rfl => exact ⟨rest, rfl⟩

/-! ### The window -/

theorem byteAt?_of_lt {s : State} {n : Nat} (h : n < 256) : s.byteAt? n = some (s.mem.read n) := if_pos h

theorem byteAt?_of_ge {s : State} {n : Nat} (h : 256 ≤ n) : s.byteAt? n = none := State.byteAt?_eq_none.2 h

theorem window_above {s : State} (h : 256 ≤ s.pc.toNat) : s.window = [] := by
  rw [window_eq, byteAt?_of_ge h, byteAt?_of_ge (by omega), byteAt?_of_ge (by omega)]
  rfl

/-- The window inside memory: the opcode byte and what follows it. -/
theorem window_cons {s : State} (h : s.pc.toNat < 256) : s.window =
    s.mem.read s.pc.toNat :: ((s.byteAt? (s.pc.toNat + 1)).toList ++ (s.byteAt? (s.pc.toNat + 2)).toList) := by
  rw [window_eq, byteAt?_of_lt h]
  rfl

theorem decode_cons {ir : Byte} {rest : List Byte} {m : Mnemonic} (h : dispatch ir = some m) :
    decode (ir :: rest) = decodeOperands m rest := by
  simp [decode, h]

theorem decode_window {s : State} {m : Mnemonic} (hpc : s.pc.toNat < 256) (hd : dispatch (s.mem.read s.pc.toNat) = some m) :
    decode s.window =
      decodeOperands m ((s.byteAt? (s.pc.toNat + 1)).toList ++ (s.byteAt? (s.pc.toNat + 2)).toList) := by
  rw [window_cons hpc, decode_cons hd]

/-! ### The stages in their order -/

/-- The pseudocode's operand check stands inside the meaning, with the same priority (40_execution_cycle.md R78, log 25). -/
theorem operandCheck_eq_exec (s : State) (m : Mnemonic) (a b : Byte) :
    (if (m.format = .R ∨ m.format = .RR ∨ m.format = .RI) ∧ a.toNat > 7 then
        .next (faulted s .registerIndexOutOfRange (some m.opcode) a.toNat)
      else if m.format = .RR ∧ b.toNat > 7 then .next (faulted s .registerIndexOutOfRange (some m.opcode) b.toNat)
      else exec (rowInstr m a b) s) = exec (rowInstr m a b) s := by
  have bad {c : Byte} (h : firstBad (rowInstr m a b).regOperands = some c) :
      .next (faulted s .registerIndexOutOfRange (some m.opcode) c.toNat) = exec (rowInstr m a b) s := by
    rw [exec_of_firstBad s h, rowInstr_mnemonic]
    rfl
  split
  · next ha =>
    apply bad
    rw [rowInstr_regOperands]
    obtain ⟨hf | hf | hf, ha⟩ := ha <;> simp [hf, ha]
  · next ha =>
    split
    · next hb =>
      apply bad
      have : ¬ a.toNat > 7 := fun h => ha ⟨.inr (.inl hb.1), h⟩
      rw [rowInstr_regOperands]
      simp [hb, this]
    · rfl

/-- The pseudocode at an assigned opcode: the operand bytes that lie above memory, and then the meaning. -/
theorem pseudoStep_of_dispatch {s : State} {m : Mnemonic} (hpc : s.pc.toNat < 256)
    (hd : dispatch (s.mem.read s.pc.toNat) = some m) : pseudoStep s =
      if m.width ≥ 2 ∧ s.pc.toNat + 1 > 255 then
        .next (faulted s .addressOutOfRange (some m.opcode) (s.pc.toNat + 1))
      else if m.width ≥ 3 ∧ s.pc.toNat + 2 > 255 then
        .next (faulted s .addressOutOfRange (some m.opcode) (s.pc.toNat + 2))
      else exec (rowInstr m (s.mem.read (s.pc.toNat + 1)) (s.mem.read (s.pc.toNat + 2))) s := by
  rw [← operandCheck_eq_exec, dispatch_eq_some.1 hd]
  simp only [pseudoStep, rows_find, hd, Option.map_some, if_neg (show ¬ s.pc.toNat > 255 by omega)]

/-- The step is the pseudocode of 40_execution_cycle.md R83. -/
theorem step_eq_pseudoStep {s : State} (hr : s.runState = .running) : step s = pseudoStep s := by
  by_cases hpc : s.pc.toNat < 256
  case neg =>
    rw [step_error hr (e := .noOpcode) (by rw [window_above (by omega)]; rfl), pseudoStep, if_pos (by omega)]
    rfl
  cases hd : dispatch (s.mem.read s.pc.toNat) with
  | none =>
    rw [step_error hr (e := .unknownOpcode (s.mem.read s.pc.toNat)) (by rw [window_cons hpc]; simp [decode, hd])]
    simp only [pseudoStep, rows_find, hd, Option.map_none, if_neg (show ¬ s.pc.toNat > 255 by omega)]
    rfl
  | some m =>
    rw [pseudoStep_of_dispatch hpc hd]
    split
    · next missing =>
      refine step_error hr (e := .missingOperand m.opcode 1) ?_
      rw [decode_window hpc hd, byteAt?_of_ge (by omega), byteAt?_of_ge (by omega)]
      exact decodeOperands_none missing.1
    · next first =>
      split
      · next missing =>
        refine step_error hr (e := .missingOperand m.opcode 2) ?_
        rw [decode_window hpc hd, byteAt?_of_lt (by omega), byteAt?_of_ge (by omega)]
        exact decodeOperands_one missing.1 _
      · next second =>
        obtain ⟨rest, hok⟩ := decodeOperands_whole (m := m) (a := s.mem.read (s.pc.toNat + 1)) (b := s.mem.read (s.pc.toNat + 2))
          (bytes := (s.byteAt? (s.pc.toNat + 1)).toList ++ (s.byteAt? (s.pc.toNat + 2)).toList)
          (fun hw => by rw [byteAt?_of_lt (by omega)]; rfl)
          (fun hw => by rw [byteAt?_of_lt (by omega), byteAt?_of_lt (by omega)]; rfl)
        exact step_ok hr ((decode_window hpc hd).trans hok)

end Sys2Proof.Machine
end

section
/-! The run-state: what an instruction, a step and an event do to it (10_state.md R35). -/

namespace Sys2Proof.Machine

open Sys2Proof.Claims

/-- An instruction keeps the run-state, halts, or faults. -/
theorem Effect.runState_cases {s t : State} {i : Instr} (h : Effect s i t) :
    t.runState = s.runState ∨ (i = .hlt ∧ t = s.halt) ∨ ∃ k o n, t = s.raise k o n := by
  cases h with
  | badRegister | callAbove => exact .inr (.inr ⟨_, _, _, rfl⟩)
  | hlt => exact .inr (.inl ⟨rfl, rfl⟩)
  | _ => exact .inl rfl

/-- Only the byte 0x01 decodes to HLT. -/
theorem opcode_of_decode_hlt {bytes rest : List Byte} (h : decode bytes = .ok (.hlt, rest)) : bytes[0]? = some 0x01#8 := by
  cases bytes with
  | nil => cases h
  | cons ir tl =>
    cases hd : dispatch ir with
    | none => simp [decode, hd] at h
    | some m =>
      rw [decode_cons hd] at h
      cases m with
      | hlt => exact congrArg some (dispatch_eq_some.1 hd).symm
      | ret => cases h
      | prn | push | pop | call | jmp | jeq | jne => obtain ⟨a, -, hi⟩ := takeOne_eq_ok.1 h; cases hi
      | ldi | add | mul | cmp | st => obtain ⟨a, b, -, hi⟩ := takeTwo_eq_ok.1 h; cases hi

/-- A step keeps the run-state, halts at the byte of HLT, or leaves a fault record. -/
theorem step_runState_cases {s t : State} (h : step s = .next t) :
    t.runState = s.runState ∨ (t.runState = .halted ∧ s.byteAt? s.pc.toNat = some 0x01#8) ∨
      (t.runState = .faulted ∧ ∃ r, t.faultRec = some r) := by
  obtain ⟨-, ⟨i, rest, hd, hx⟩ | ⟨e, -, rfl⟩⟩ := step_cases h
  · obtain same | ⟨rfl, rfl⟩ | ⟨k, o, n, rfl⟩ := (effect_of_exec hx).runState_cases
    · exact .inl same
    · exact .inr (.inl ⟨rfl, byteAt?_of_window (k := 0) (opcode_of_decode_hlt hd)⟩)
    · exact .inr (.inr ⟨rfl, _, rfl⟩)
  · obtain ⟨k, o, n, he⟩ := fetchFault_eq_raise s e
    exact .inr (.inr (he ▸ ⟨rfl, _, rfl⟩))

/-- The changes of the run-state that R35 lists are all there are. -/
theorem onEvent_runState {e : Event} {s t : State} (h : onEvent e s = .next t) (change : t.runState ≠ s.runState) :
    (s.runState = .idle ∧ t.runState = .running ∧ e = .host .start) ∨
    (s.runState = .running ∧ t.runState = .halted ∧ e = .step ∧ s.byteAt? s.pc.toNat = some 0x01#8) ∨
    (s.runState = .running ∧ t.runState = .faulted ∧ e = .step ∧ ∃ r, t.faultRec = some r) ∨
    (t.runState = .idle ∧ e = .host .reset) := by
  cases e with
  | step =>
    have running := (step_cases h).1
    obtain same | ⟨halted, hlt⟩ | ⟨faulted, record⟩ := step_runState_cases h
    · exact absurd same change
    · exact .inr (.inl ⟨running, halted, rfl, hlt⟩)
    · exact .inr (.inr (.inl ⟨running, faulted, rfl, record⟩))
  | host a =>
    obtain ⟨rfl, rfl⟩ | ⟨p, -, -, rfl⟩ | ⟨rfl, idle, rfl⟩ | ⟨-, -, rfl⟩ := hostAct_cases h
    · exact .inr (.inr (.inr ⟨rfl, rfl⟩))
    · exact absurd rfl change
    · exact .inl ⟨idle, rfl, rfl⟩
    · exact absurd rfl change

/-- A step at the byte of HLT halts (44_control_transfer.md R104). -/
theorem step_of_at_hlt {s : State} (h : At s [0x01#8]) : step s = .next s.halt := by
  obtain ⟨hr, bytes⟩ := h
  obtain ⟨hpc, hir⟩ := State.byteAt?_eq_some.1 (bytes 0 0x01#8 rfl)
  exact (step_ok hr (decode_window (m := .hlt) hpc (congrArg dispatch hir))).trans (execHlt_eq s)

/-- Settles O30: no event makes another change, and each change is made, a fault by the equality of the step with the pseudocode. -/
theorem runStateChangesAsListed : Obligations.RunStateChangesAsListed := by
  refine ⟨fun e s t => onEvent_runState, fun s idle => ?start, fun s h => ⟨s.halt, step_of_at_hlt h, rfl⟩,
    fun s kind opcode value hr h => ⟨_, (step_eq_pseudoStep hr).trans h, rfl⟩, fun s => ⟨State.reset, rfl, rfl⟩⟩
  case start => exact ⟨s.start, rfl, by simp [State.start, idle]⟩

end Sys2Proof.Machine
end

section
/-! The dispatch table: its fourteen entries, and the bytes it leaves unassigned (30_encoding.md R67, R68). -/

namespace Sys2Proof.Machine

open Sys2Proof.Claims

/-- Settles O16: the columns are read off the table, and it selects by equality with the opcode byte, which no two entries share. -/
theorem dispatchTableHasFourteenEntries : Obligations.DispatchTableHasFourteenEntries :=
  ⟨rfl, fun _ m => dispatch_eq_some.trans (and_iff_right (mem_allMnemonics m)).symm⟩

/-- A byte outside the opcode column of the pseudocode's table selects no row. -/
theorem rows_find_eq_none {ir : Byte} (h : ir ∉ rows.map (·.1)) : rows.find? (fun row => row.1 == ir) = none := by
  refine List.find?_eq_none.2 fun row mem same => h ?_
  exact List.mem_map.2 ⟨row, mem, eq_of_beq same⟩

/-- The pseudocode raises UnknownOpcode at a byte inside memory that selects no row (40_execution_cycle.md R76). -/
theorem pseudoStep_of_find_none {s : State} {ir : Byte} (hir : s.byteAt? s.pc.toNat = some ir)
    (noRow : rows.find? (fun row => row.1 == ir) = none) : pseudoStep s = .next (faulted s .unknownOpcode (some ir) ir.toNat) := by
  obtain ⟨inside, rfl⟩ := State.byteAt?_eq_some.1 hir
  simp only [pseudoStep, noRow, if_neg (show ¬ s.pc.toNat > 255 by omega)]

/-- The assigned bytes, as numbers, are the opcodes of the fourteen entries. -/
theorem assigned_perm_opcodes : ((List.range 256).filter fun n => (dispatch (BitVec.ofNat 8 n)).isSome).Perm
    (allMnemonics.map fun m => m.opcode.toNat) := by
  have distinct : (allMnemonics.map fun m => m.opcode.toNat).Nodup := by decide
  refine (List.perm_ext_iff_of_nodup (List.nodup_range.filter _) distinct).2 fun n => ?_
  simp only [List.mem_filter, List.mem_range, List.mem_map, Option.isSome_iff_exists, dispatch_eq_some]
  constructor
  · rintro ⟨hn, m, hm⟩
    exact ⟨m, mem_allMnemonics m, by rw [hm, BitVec.toNat_ofNat, Nat.mod_eq_of_lt hn]⟩
  · rintro ⟨m, -, rfl⟩
    exact ⟨m.opcode.isLt, m, by simp⟩

/-- Of the 256 bytes the table leaves all but its fourteen distinct opcodes unassigned. -/
theorem length_unassigned : ((List.range 256).filter fun n => (dispatch (BitVec.ofNat 8 n)).isNone).length = 242 := by
  have split := (List.range 256).length_eq_length_filter_add fun n => (dispatch (BitVec.ofNat 8 n)).isSome
  have assigned := assigned_perm_opcodes.length_eq
  simp only [List.length_range, List.length_map, Option.not_isSome] at split assigned
  have entries : allMnemonics.length = 14 := rfl
  omega

/-- Settles O18: the step is the pseudocode's, whose table has no row for the byte; the 242 are what the fourteen opcodes leave. -/
theorem unassignedOpcodeFaults : Obligations.UnassignedOpcodeFaults :=
  ⟨fun _ _ unassigned hr hir => (step_eq_pseudoStep hr).trans (pseudoStep_of_find_none hir (rows_find_eq_none unassigned)),
    length_unassigned⟩

end Sys2Proof.Machine
end

section
/-! The step as a whole (40_execution_cycle.md R74, R83): it is the pseudocode, and while Running it runs the instruction lying at `pc`
or faults. -/

namespace Sys2Proof.Machine

open Sys2Proof.Claims

/-- Settles O21: fetch, dispatch, operand fetch and operand check agree with the pseudocode stage by stage (`step_eq_pseudoStep`). -/
theorem stepFollowsPseudocode : Obligations.StepFollowsPseudocode := fun _ => step_eq_pseudoStep

/-! ### What decodes is an encoding -/

/-- A row takes exactly the operand bytes of its own instruction (30_encoding.md R62). -/
theorem operands_of_decodeOperands {m : Mnemonic} {bytes rest : List Byte} {i : Instr}
    (h : decodeOperands m bytes = .ok (i, rest)) : i.mnemonic = m ∧ bytes = i.operands ++ rest := by
  cases m with
  | ret | hlt => cases h; exact ⟨rfl, rfl⟩
  | prn | push | pop | call | jmp | jeq | jne =>
    obtain ⟨a, rfl, rfl⟩ := takeOne_eq_ok.1 h
    exact ⟨rfl, rfl⟩
  | ldi | add | mul | cmp | st =>
    obtain ⟨a, b, rfl, rfl⟩ := takeTwo_eq_ok.1 h
    exact ⟨rfl, rfl⟩

/-- Bytes that decode are the encoding of what they decode to, and the rest. -/
theorem eq_encode_append_of_decode {bytes rest : List Byte} {i : Instr} (h : decode bytes = .ok (i, rest)) :
    bytes = encode i ++ rest := by
  cases bytes with
  | nil => cases h
  | cons ir tl =>
    cases hd : dispatch ir with
    | none => simp [decode, hd] at h
    | some m =>
      rw [decode_cons hd] at h
      obtain ⟨rfl, rfl⟩ := operands_of_decodeOperands h
      rw [← dispatch_eq_some.1 hd, encode, List.cons_append]

/-- The instruction that the window decodes to lies in memory at `pc`. -/
theorem at_encode_of_decode {s : State} {i : Instr} {rest : List Byte} (hr : s.runState = .running)
    (hd : decode s.window = .ok (i, rest)) : At s (encode i) := by
  refine ⟨hr, fun k b hk => byteAt?_of_window ?_⟩
  obtain ⟨hlt, -⟩ := List.getElem?_eq_some_iff.1 hk
  rw [eq_encode_append_of_decode hd, List.getElem?_append_left hlt, hk]

/-! ### Every meaning answers a next state -/

theorem withReg_next {m : Mnemonic} {a : Byte} {s : State} {k : Reg → StepOutcome} (hk : ∀ r, ∃ t, k r = .next t) :
    ∃ t, withReg m a s k = .next t := by
  obtain ⟨r, rfl⟩ | bad := regByte_cases a
  · rw [withReg_regByte]
    exact hk r
  · exact ⟨_, withReg_bad s k bad⟩

theorem exec_next (i : Instr) (s : State) : ∃ t, exec i s = .next t := by
  cases i with
  | ret | hlt => exact ⟨_, rfl⟩
  | ldi | prn | push | pop | jmp | jeq | jne => exact withReg_next fun _ => ⟨_, rfl⟩
  | add | mul | cmp | st => exact withReg_next fun _ => withReg_next fun _ => ⟨_, rfl⟩
  | call a =>
    obtain ⟨r, rfl⟩ | bad := regByte_cases a
    · exact ⟨_, execCall_regs r s⟩
    · exact ⟨_, withReg_bad s _ bad⟩

/-! ### One instruction or one fault -/

/-- The two things a step does while Running. -/
theorem step_of_running {s : State} (hr : s.runState = .running) :
    (∃ i, At s (encode i) ∧ step s = exec i s) ∨ ∃ t, step s = .next t ∧ t.runState = .faulted := by
  cases hd : decode s.window with
  | ok found => exact .inl ⟨found.1, at_encode_of_decode hr hd, step_ok hr hd⟩
  | error e =>
    obtain ⟨k, o, n, fault⟩ := fetchFault_eq_raise s e
    exact .inr ⟨_, step_error hr hd, by rw [fault, State.raise_runState]⟩

theorem step_next_of_running {s : State} (hr : s.runState = .running) : ∃ t, step s = .next t := by
  obtain ⟨i, -, hstep⟩ | ⟨t, hstep, -⟩ := step_of_running hr
  · exact hstep ▸ exec_next i s
  · exact ⟨t, hstep⟩

/-- Settles O22: a step that answers a next state was taken while Running, where it runs the instruction at `pc`, which always answers
one, or faults. -/
theorem stepsExactlyWhileRunning : Obligations.StepsExactlyWhileRunning :=
  ⟨fun _ => ⟨fun ⟨_, h⟩ => (step_cases h).1, step_next_of_running⟩, fun _ => step_of_running⟩

end Sys2Proof.Machine
end

section
/-! ADD and MUL (41_alu.md R89, R90). The encoding and the two exceptions are said once for every instruction and every format `RR`
row; an instruction adds its own result. -/

namespace Sys2Proof.Machine

open Sys2Proof.Claims

/-! ### Encoding and exceptions -/

/-- The step runs the instruction whose encoding lies at `pc`, whatever follows it (40_execution_cycle.md R75 to R77). -/
theorem step_of_at_encode {s : State} {i : Instr} (h : At s (encode i)) : step s = exec i s := by
  obtain ⟨hr, bytes⟩ := h
  obtain ⟨hpc, hir⟩ := State.byteAt?_eq_some.1 (bytes 0 i.mnemonic.opcode rfl)
  obtain ⟨rest, operands⟩ : ∃ rest, decodeOperands i.mnemonic
      ((s.byteAt? (s.pc.toNat + 1)).toList ++ (s.byteAt? (s.pc.toNat + 2)).toList) = .ok (i, rest) := by
    cases i with
    | ret | hlt => exact ⟨_, rfl⟩
    | prn a | push a | pop a | call a | jmp a | jeq a | jne a =>
      rw [bytes 1 a rfl]
      exact ⟨_, rfl⟩
    | ldi a b | add a b | mul a b | cmp a b | st a b =>
      rw [bytes 1 a rfl, bytes 2 b rfl]
      exact ⟨_, rfl⟩
  exact step_ok hr ((decode_window hpc (dispatch_eq_some.2 hir.symm)).trans operands)

/-- A bad register operand of the instruction at `pc` faults (60_exceptions.md R108). -/
theorem raises_of_at_of_firstBad {s : State} {i : Instr} {c : Byte} (h : At s (encode i))
    (bad : firstBad i.regOperands = some c) : Raises .registerIndexOutOfRange s :=
  ⟨_, _, (step_of_at_encode h).trans (exec_of_firstBad s bad), rfl, rfl, rfl⟩

/-- Either operand of an instruction with two register operands is checked. -/
theorem badOperandsFault {ir : Byte} {build : Byte → Byte → Instr} (encoding : ∀ a b, encode (build a b) = [ir, a, b])
    (registers : ∀ a b, (build a b).regOperands = [a, b]) : BadOperandsFault ir := by
  intro s a b h bad
  obtain ⟨c, hc⟩ : ∃ c, firstBad [a, b] = some c := by
    by_cases ha : 7 < a.toNat
    · exact ⟨a, firstBad_two (.inl ⟨ha, rfl⟩)⟩
    · exact ⟨b, firstBad_two (.inr ⟨Nat.not_lt.1 ha, bad.resolve_left ha, rfl⟩)⟩
  rw [← encoding] at h
  rw [← registers] at hc
  exact raises_of_at_of_firstBad h hc

/-- An operand byte above memory faults, for every row of the dispatch table (40_execution_cycle.md R77, 60_exceptions.md R109). -/
theorem missingOperandFaults {m : Mnemonic} {n : Nat} (width : m.width = n + 1) : MissingOperandFaults m.opcode n := by
  intro s hr hir above
  obtain ⟨hpc, hop⟩ := State.byteAt?_eq_some.1 hir
  have hstep := (step_eq_pseudoStep hr).trans (pseudoStep_of_dispatch hpc (dispatch_eq_some.2 hop.symm))
  split at hstep
  · exact ⟨_, _, hstep, rfl, rfl, rfl⟩
  · next first =>
    split at hstep
    · exact ⟨_, _, hstep, rfl, rfl, rfl⟩
    · next second =>
      have : m.width ≤ 3 := by cases m <;> decide
      omega

/-! ### Result and frame -/

theorem aluAdd_toNat (p q : Byte) : (aluAdd p q).toNat = (p.toNat + q.toNat) % 256 := BitVec.toNat_ofNat _ _

theorem aluMul_toNat (p q : Byte) : (aluMul p q).toNat = (p.toNat * q.toNat) % 256 := BitVec.toNat_ofNat _ _

/-- What an instruction that writes one register and falls through over 3 bytes leaves unchanged. -/
theorem writeReg_advance_frame (s : State) (a : Reg) (v : Byte) :
    (∀ r, r ≠ a → ((s.writeReg a v).advance 3).readReg r = s.readReg r) ∧ ((s.writeReg a v).advance 3).pc = s.pc + 3 ∧
      OnlyRegsAndPc s ((s.writeReg a v).advance 3) :=
  ⟨fun _ other => s.readReg_writeReg_other v other, rfl, rfl, rfl, rfl, rfl, rfl⟩

/-- Settles O3: on registers ADD writes `aluAdd` of the two values, whose number is the sum mod 256. -/
theorem addSumsMod256 : Obligations.AddSumsMod256 := by
  refine ⟨fun _ a b => step_of_at_encode (i := .add a b), fun a b s => ⟨_, execAdd_regs a b s, ?sum, writeReg_advance_frame s a _⟩,
    missingOperandFaults (m := .add) rfl, badOperandsFault (build := .add) (fun _ _ => rfl) (fun _ _ => rfl)⟩
  case sum => rw [State.advance_readReg, State.readReg_writeReg_same, aluAdd_toNat]

/-- Settles O4: on registers MUL writes `aluMul` of the two values, whose number is the product mod 256. -/
theorem mulMultipliesMod256 : Obligations.MulMultipliesMod256 := by
  refine ⟨fun _ a b => step_of_at_encode (i := .mul a b), fun a b s => ⟨_, execMul_regs a b s, ?product, writeReg_advance_frame s a _⟩,
    missingOperandFaults (m := .mul) rfl, badOperandsFault (build := .mul) (fun _ _ => rfl) (fun _ _ => rfl)⟩
  case product => rw [State.advance_readReg, State.readReg_writeReg_same, aluMul_toNat]

end Sys2Proof.Machine
end

section
/-! LDI and ST (42_data_movement.md R93, R94). -/

namespace Sys2Proof.Machine

open Sys2Proof.Claims

/-- Settles O1: LDI to a register writes `b` there whatever it is; only the operand byte `a` is a register index, so a `b` above 7
is no fault. -/
theorem ldiLoadsImmediate : Obligations.LdiLoadsImmediate := by
  refine ⟨fun _ a b => step_of_at_encode (i := .ldi a b), fun a b s => ⟨_, execLdi_regs a b s, ?immediate, writeReg_advance_frame s a b⟩,
    missingOperandFaults (m := .ldi) rfl, fun _ a b h bad => raises_of_at_of_firstBad (i := .ldi a b) h (firstBad_one bad)⟩
  case immediate => rw [State.advance_readReg, State.readReg_writeReg_same]

/-- What a store that falls through over 3 bytes leaves unchanged. -/
theorem memWrite_advance_frame (s : State) (addr v : Byte) :
    (∀ n, n ≠ addr.toNat → ((s.memWrite addr v).advance 3).mem.read n = s.mem.read n) ∧
      (∀ r, ((s.memWrite addr v).advance 3).readReg r = s.readReg r) ∧ ((s.memWrite addr v).advance 3).pc = s.pc + 3 ∧
      OnlyRegsMemAndPc s ((s.memWrite addr v).advance 3) :=
  ⟨fun _ other => Memory.read_write_other s.mem v other, fun _ => rfl, rfl, rfl, rfl, rfl, rfl⟩

/-- Settles O6: on registers ST is one data write, read back at its own address when memory is in canonical form. -/
theorem stStoresRegister : Obligations.StStoresRegister := by
  refine ⟨fun _ a b => step_of_at_encode (i := .st a b), fun a b s => ⟨_, execSt_regs a b s, ?stored, memWrite_advance_frame s _ _⟩,
    missingOperandFaults (m := .st) rfl, badOperandsFault (build := .st) (fun _ _ => rfl) (fun _ _ => rfl)⟩
  case stored =>
    intro canonical
    rw [State.advance_memRead, State.memRead_memWrite _ _ _ _ canonical, if_pos rfl]

end Sys2Proof.Machine
end

section
/-! RET, JMP, JEQ and JNE (44_control_transfer.md R100 to R103). A jump and an advance each write `pc` and nothing else; an instruction
chooses between them. -/

namespace Sys2Proof.Machine

open Sys2Proof.Claims

/-- A target byte is the new `pc` as it stands: 9 bits hold every byte (10_state.md R27). -/
theorem State.jump_pc_toNat (s : State) (v : Byte) : (s.jump v).pc.toNat = v.toNat := BitVec.toNat_setWidth_of_le (by decide)

theorem onlyPc_jump (s : State) (v : Byte) : OnlyPc s (s.jump v) := ⟨fun _ => rfl, rfl, rfl, rfl, rfl, rfl⟩

theorem onlyPc_advance (s : State) (w : Nat) : OnlyPc s (s.advance w) := ⟨fun _ => rfl, rfl, rfl, rfl, rfl, rfl⟩

/-- The operand of an instruction with one register operand is checked, whatever its handler goes on to do with it. -/
theorem badOperandFaults {ir : Byte} {build : Byte → Instr} (encoding : ∀ a, encode (build a) = [ir, a])
    (registers : ∀ a, (build a).regOperands = [a]) : BadOperandFaults ir := by
  intro s a h bad
  rw [← encoding] at h
  exact raises_of_at_of_firstBad h (by rw [registers, firstBad_one bad])

/-- No opcode byte lies above memory (40_execution_cycle.md R75). -/
theorem step_of_pc_above {s : State} (hr : s.runState = .running) (above : 256 ≤ s.pc.toNat) :
    step s = .next (s.raise .addressOutOfRange none s.pc.toNat) :=
  step_error hr (e := .noOpcode) (by rw [window_above above]; rfl)

/-- Settles O10: RET is a jump to the byte at `sp` and then an increment of `sp`, which writes no register but R7. -/
theorem retPopsProgramCounter : Obligations.RetPopsProgramCounter := by
  refine ⟨fun _ => step_of_at_encode (i := .ret), fun s => ⟨_, execRet_eq s, ?pc, ?sp, ?others, rfl, rfl, rfl, rfl, rfl⟩,
    fun s hr top => ⟨_, _, step_of_pc_above hr top.ge, rfl, rfl, rfl⟩⟩
  case pc => exact s.jump_pc_toNat _
  case sp => exact State.incSp_sp _
  case others =>
    intro r other
    rw [State.incSp_readReg, if_neg other, State.jump_readReg]

/-- Settles O11: on a register JMP is one jump, R7 being a register like the others. -/
theorem jmpJumpsToRegister : Obligations.JmpJumpsToRegister :=
  ⟨fun _ a => step_of_at_encode (i := .jmp a), fun a s => ⟨_, execJmp_regs a s, s.jump_pc_toNat _, onlyPc_jump s _⟩,
    missingOperandFaults (m := .jmp) rfl, badOperandFaults (build := .jmp) (fun _ => rfl) (fun _ => rfl)⟩

/-- Settles O12: JEQ is a jump when E is set and an advance when it is clear; its operand is checked before E is read. -/
theorem jeqJumpsWhenEqual : Obligations.JeqJumpsWhenEqual := by
  refine ⟨fun _ a => step_of_at_encode (i := .jeq a), fun a s => ?_,
    missingOperandFaults (m := .jeq) rfl, badOperandFaults (build := .jeq) (fun _ => rfl) (fun _ => rfl)⟩
  cases equal : flagE s.fl with
  | true => exact ⟨_, (Effect.jeqTaken a equal).exec_eq, fun _ => s.jump_pc_toNat _, nofun, onlyPc_jump s _⟩
  | false => exact ⟨_, (Effect.jeqNotTaken a equal).exec_eq, nofun, fun _ => rfl, onlyPc_advance s 2⟩

/-- Settles O13: JNE is a jump when E is clear, so also when no CMP has run, and an advance when it is set. -/
theorem jneJumpsWhenNotEqual : Obligations.JneJumpsWhenNotEqual := by
  refine ⟨fun _ a => step_of_at_encode (i := .jne a), fun a s => ?_,
    missingOperandFaults (m := .jne) rfl, badOperandFaults (build := .jne) (fun _ => rfl) (fun _ => rfl)⟩
  cases equal : flagE s.fl with
  | false => exact ⟨_, (Effect.jneTaken a equal).exec_eq, fun _ => s.jump_pc_toNat _, nofun, onlyPc_jump s _⟩
  | true => exact ⟨_, (Effect.jneNotTaken a equal).exec_eq, nofun, fun _ => rfl, onlyPc_advance s 2⟩

end Sys2Proof.Machine
end

section
/-! Start, and the Idle states (70_reset_and_hazards.md R122, R125, R127): only reset leads into Idle, and only load acts there without
leaving it. -/

namespace Sys2Proof.Machine

theorem State.start_of_idle {s : State} (idle : s.runState = .idle) : s.start = { s with runState := .running } := if_pos idle

theorem State.start_of_not_idle {s : State} (active : s.runState ≠ .idle) : s.start = s := if_neg active

/-- No step ends in Idle: it is taken while Running, and the run-state it leaves is Running, Halted or Faulted. -/
theorem step_runState_ne_idle {s t : State} (h : step s = .next t) : t.runState ≠ .idle := by
  have running := (step_cases h).1
  obtain same | ⟨halted, -⟩ | ⟨faulted, -⟩ := step_runState_cases h
  · simp [same, running]
  · simp [halted]
  · simp [faulted]

/-- An event that ends in Idle is a reset, or it began in Idle and changes memory at most. -/
theorem onEvent_idle_cases {e : Event} {s t : State} (h : onEvent e s = .next t) (idle : t.runState = .idle) :
    t = State.reset ∨ (s.runState = .idle ∧ t = { s with mem := t.mem }) := by
  cases e with
  | step => exact absurd idle (step_runState_ne_idle h)
  | host a =>
    obtain ⟨-, rfl⟩ | ⟨p, -, before, rfl⟩ | ⟨-, -, rfl⟩ | ⟨-, active, rfl⟩ := hostAct_cases h
    · exact .inl rfl
    · exact .inr ⟨before, rfl⟩
    · cases idle
    · exact absurd idle active

/-- In Idle everything but memory is as after reset. -/
theorem Reachable.eq_reset_of_idle {s : State} (h : Reachable s) (idle : s.runState = .idle) :
    s = { State.reset with mem := s.mem } := by
  induction h with
  | reset => rfl
  | @event s t e _ he ih =>
    obtain rfl | ⟨before, loaded⟩ := onEvent_idle_cases he idle
    · rfl
    · calc
        t = { s with mem := t.mem } := loaded
        _ = { State.reset with mem := t.mem } := congrArg (fun u : State => { u with mem := t.mem }) (ih before)

/-- Settles O49: start branches on Idle, and a reachable Idle state is the reset state with another memory, so its `pc` is 0. -/
theorem startRunsFromZero : Obligations.StartRunsFromZero := by
  refine ⟨fun s idle => ?inIdle, fun s active => ?elsewhere, fun s h idle => ?reachable⟩
  case inIdle => rw [hostAct, State.start_of_idle idle]
  case elsewhere => rw [hostAct, State.start_of_not_idle active]
  case reachable =>
    have eq := h.eq_reset_of_idle idle
    exact ⟨congrArg State.pc eq, eq⟩

end Sys2Proof.Machine
end

section
/-! Decoding and encoding (30_encoding.md sections 1 to 5), and the step that runs what is decoded (40_execution_cycle.md R75 to R79). -/

namespace Sys2Proof.Machine

open Sys2Proof.Claims

/-- An encoding decodes to its instruction and leaves the bytes after it (30_encoding.md R70, R72). -/
theorem decode_encode_append (i : Instr) (rest : List Byte) : decode (encode i ++ rest) = .ok (i, rest) := by
  have operands : decodeOperands i.mnemonic (i.operands ++ rest) = .ok (i, rest) := by cases i <;> rfl
  exact (decode_cons (dispatch_opcode i.mnemonic)).trans operands

/-- Settles O15: the decoder takes exactly the bytes of an encoding, and any encoding decodes to its instruction. -/
theorem decodeAgreesWithEncode : Obligations.DecodeAgreesWithEncode :=
  fun _ i rest => ⟨eq_encode_append_of_decode, fun h => h ▸ decode_encode_append i rest⟩

/-- Settles O17: each word is the encoding of its instruction, followed by nothing. -/
theorem writtenOutWordsDecode : Obligations.WrittenOutWordsDecode :=
  ⟨decode_encode_append (.ldi 0 8) [], decode_encode_append (.mul 0 1) [], decode_encode_append (.prn 5) [],
    decode_encode_append (.push 7) [], decode_encode_append (.call 1) [], decode_encode_append .hlt []⟩

/-- Settles O19: a Running step is the meaning of what its window decodes to (`step_ok`). -/
theorem stepRunsDecodedInstruction : Obligations.StepRunsDecodedInstruction := fun _ _ _ => step_ok

/-- Settles O20: the operand bytes of an encoding at `pc` are in the window, and no other byte of it is taken (`step_of_at_encode`). -/
theorem stepRunsInstructionInMemory : Obligations.StepRunsInstructionInMemory := fun _ _ => step_of_at_encode

/-- Settles O23: the operand check and each handler answer a next state (`exec_next`). -/
theorem everyMeaningAnswersNextState : Obligations.EveryMeaningAnswersNextState := exec_next

end Sys2Proof.Machine
end

section
/-! The faults of a step (60_exceptions.md sections 1 and 2): where each arises, said once, and that nothing else faults. -/

namespace Sys2Proof.Machine

open Sys2Proof.Claims

/-! ### Each fault -/

/-- Settles O24: above memory the window holds no opcode byte (`step_of_pc_above`). -/
theorem fetchAboveMemoryFaults : Obligations.FetchAboveMemoryFaults := fun _ => step_of_pc_above

theorem Mnemonic.width_le (m : Mnemonic) : m.width ≤ Config.maxWidth := by cases m <;> decide

/-- The first operand byte above memory, whatever the other holds (40_execution_cycle.md R77). -/
theorem step_of_operand_above {s : State} {m : Mnemonic} {k : Nat} (hr : s.runState = .running)
    (hop : s.byteAt? s.pc.toNat = some m.opcode) (pos : 1 ≤ k) (inWidth : k < m.width) (above : s.pc.toNat + k = 256) :
    step s = .next (faulted s .addressOutOfRange (some m.opcode) 256) := by
  obtain ⟨hpc, hir⟩ := State.byteAt?_eq_some.1 hop
  have width : m.width ≤ 3 := Mnemonic.width_le m
  rw [step_eq_pseudoStep hr, pseudoStep_of_dispatch hpc (dispatch_eq_some.2 hir.symm)]
  obtain rfl | rfl : k = 1 ∨ k = 2 := by omega
  · rw [if_pos (by omega), above]
  · rw [if_neg (by omega), if_pos (by omega), above]

/-- Settles O25: with `k` the first missing operand byte, its place `pc + k` is 256 (`step_of_operand_above`). -/
theorem operandAboveMemoryFaults : Obligations.OperandAboveMemoryFaults := fun _ _ _ => step_of_operand_above

/-- Settles O26: the operand check comes before the handler, in the meaning (`exec_of_firstBad`) and so in the step. -/
theorem badRegisterOperandFaults : Obligations.BadRegisterOperandFaults :=
  fun s _ _ bad => ⟨exec_of_firstBad s bad, fun lies => (step_of_at_encode lies).trans (exec_of_firstBad s bad)⟩

/-! ### Nothing else faults -/

/-- A row rejects bytes only for want of an operand byte, by the number of the first one missing (40_execution_cycle.md R77). -/
theorem decodeOperands_error {m : Mnemonic} {bytes : List Byte} {e : DecodeError} (h : decodeOperands m bytes = .error e) :
    e = .missingOperand m.opcode (bytes.length + 1) ∧ bytes.length + 1 < m.width := by
  cases m with
  | ret | hlt => cases h
  | prn | push | pop | call | jmp | jeq | jne =>
    match bytes, h with
    | [], rfl => exact ⟨rfl, by decide⟩
  | ldi | add | mul | cmp | st =>
    match bytes, h with
    | [], rfl => exact ⟨rfl, by decide⟩
    | [_], rfl => exact ⟨rfl, Nat.lt_add_one 2⟩

/-- The window ends where memory does. -/
theorem window_length (s : State) : s.window.length = min 3 (256 - s.pc.toNat) := by
  have length (n : Nat) : (s.byteAt? n).toList.length = if n < 256 then 1 else 0 := by
    unfold State.byteAt? Config.memSize
    split <;> rfl
  simp only [window_eq, List.length_append, length]
  split_ifs <;> omega

/-- The decoder rejects a window for want of an opcode byte, for an unassigned one, or for want of an operand byte, of which the
first one missing would lie at 256. -/
theorem decode_window_error {s : State} {e : DecodeError} (hd : decode s.window = .error e) :
    (e = .noOpcode ∧ 256 ≤ s.pc.toNat) ∨
    (∃ ir, e = .unknownOpcode ir ∧ s.byteAt? s.pc.toNat = some ir ∧ dispatch ir = none) ∨
    (∃ m k, e = .missingOperand (Mnemonic.opcode m) k ∧ s.byteAt? s.pc.toNat = some m.opcode ∧
      k < m.width ∧ s.pc.toNat + k = 256) := by
  have length := window_length s
  cases hw : s.window with
  | nil =>
    rw [hw] at hd length
    cases hd
    exact .inl ⟨rfl, by simp at length; omega⟩
  | cons ir tl =>
    have hir : s.byteAt? s.pc.toNat = some ir := byteAt?_of_window (k := 0) (by rw [hw]; rfl)
    rw [hw] at hd length
    cases hm : dispatch ir with
    | none =>
      simp only [decode, hm] at hd
      cases hd
      exact .inr (.inl ⟨ir, rfl, hir, hm⟩)
    | some m =>
      obtain rfl := dispatch_eq_some.1 hm
      rw [decode_cons hm] at hd
      obtain ⟨rfl, short⟩ := decodeOperands_error hd
      have width : m.width ≤ 3 := Mnemonic.width_le m
      exact .inr (.inr ⟨m, _, rfl, hir, short, by simp only [List.length_cons] at length; omega⟩)

/-- The faults a step can take, one rule for each place that raises one: its kind, the record's opcode and the record's value. -/
inductive FaultAt (s : State) : FaultKind → Option Byte → Nat → Prop where
  | fetch (above : 256 ≤ s.pc.toNat) : FaultAt s .addressOutOfRange none s.pc.toNat
  | unknownOpcode {ir : Byte} (hir : s.byteAt? s.pc.toNat = some ir) (unassigned : dispatch ir = none) :
    FaultAt s .unknownOpcode (some ir) ir.toNat
  | operand {m : Mnemonic} (hop : s.byteAt? s.pc.toNat = some m.opcode) (reaches : 256 < s.pc.toNat + m.width) :
    FaultAt s .addressOutOfRange (some m.opcode) 256
  | badRegister {i : Instr} {c : Byte} (lies : At s (encode i)) (bad : firstBad i.regOperands = some c) :
    FaultAt s .registerIndexOutOfRange (some i.mnemonic.opcode) c.toNat
  | call {a : Reg} (lies : At s (encode (.call (regByte a)))) (above : 255 < s.pc.toNat + 2) :
    FaultAt s .addressOutOfRange (some 0x50#8) (s.pc.toNat + 2)

/-- An instruction of a Running core faults on its first bad register operand, or as a CALL whose return address is above 255. -/
theorem Effect.faulted_cases {s t : State} {i : Instr} (h : Effect s i t) (hr : s.runState = .running) (ht : t.runState = .faulted) :
    (∃ c, firstBad i.regOperands = some c ∧ t = s.badRegister i.mnemonic c) ∨
    (∃ a, i = .call (regByte a) ∧ 255 < s.pc.toNat + 2 ∧ t = s.raise .addressOutOfRange (some 0x50#8) (s.pc.toNat + 2)) := by
  cases h with
  | badRegister bad => exact .inl ⟨_, bad, rfl⟩
  | callAbove a above => exact .inr ⟨a, rfl, above, rfl⟩
  | hlt => cases ht
  | _ => cases hr.symm.trans ht

/-- A faulting step takes one of the faults of `FaultAt`, and writes nothing else (40_execution_cycle.md R81). -/
theorem faultAt_of_step {s t : State} (h : step s = .next t) (ht : t.runState = .faulted) :
    ∃ k o n, FaultAt s k o n ∧ t = s.raise k o n := by
  obtain ⟨hr, ⟨i, rest, hd, hx⟩ | ⟨e, hd, rfl⟩⟩ := step_cases h
  · have lies := at_encode_of_decode hr hd
    obtain ⟨c, bad, rfl⟩ | ⟨a, rfl, above, rfl⟩ := (effect_of_exec hx).faulted_cases hr ht
    · exact ⟨_, _, _, .badRegister lies bad, rfl⟩
    · exact ⟨_, _, _, .call lies above, rfl⟩
  · obtain ⟨rfl, above⟩ | ⟨ir, rfl, hir, unassigned⟩ | ⟨m, k, rfl, hop, inWidth, top⟩ := decode_window_error hd
    · exact ⟨_, _, _, .fetch above, rfl⟩
    · exact ⟨_, _, _, .unknownOpcode hir unassigned, rfl⟩
    · exact ⟨_, _, _, .operand hop (by omega), by rw [State.fetchFault, top]⟩

/-- An encoding that lies at `pc` lies inside memory. -/
theorem at_encode_end_le {s : State} {i : Instr} (lies : At s (encode i)) : s.pc.toNat + (encode i).length ≤ 256 := by
  have nonempty : 0 < (encode i).length := Nat.succ_pos _
  have inside := (State.byteAt?_eq_some.1 (lies.2 _ _ (List.getElem?_eq_getElem (Nat.sub_one_lt_of_lt nonempty)))).1
  omega

/-- The opcode byte of an encoding that lies at `pc` is the byte there. -/
theorem opcode_of_at_encode {s : State} {i : Instr} (lies : At s (encode i)) :
    s.byteAt? s.pc.toNat = some i.mnemonic.opcode := lies.2 0 _ rfl

/-- The record's opcode is the byte at `pc`, and none where there is none. -/
theorem FaultAt.opcode_eq {s : State} {k : FaultKind} {o : Option Byte} {n : Nat} (h : FaultAt s k o n) :
    o = s.byteAt? s.pc.toNat := by
  cases h with
  | fetch above => exact (byteAt?_of_ge above).symm
  | unknownOpcode hir => exact hir.symm
  | operand hop => exact hop.symm
  | badRegister lies => exact (opcode_of_at_encode lies).symm
  | call lies => exact (opcode_of_at_encode lies).symm

/-- Settles O29: the state is `raise` of one of the faults of `FaultAt`, each of which has one of three kinds. -/
theorem faultsArePrecise : Obligations.FaultsArePrecise := by
  intro s t h ht
  obtain ⟨k, o, n, fault, rfl⟩ := faultAt_of_step h ht
  refine ⟨⟨k, s.pc, o, n⟩, rfl, rfl, fault.opcode_eq, ?kind, rfl⟩
  cases fault with
  | unknownOpcode => exact .inl ⟨rfl, rfl⟩
  | badRegister => exact .inr (.inl ⟨rfl, rfl⟩)
  | fetch | operand | call => exact .inr (.inr ⟨rfl, rfl⟩)

/-- Settles O28: of the faults of `FaultAt` three are of this kind; a CALL has its operand byte in memory, so it lies at 254. -/
theorem addressFaultsInThreeCases : Obligations.AddressFaultsInThreeCases := by
  intro s t r bound h ht hr kind
  obtain ⟨k, o, n, fault, rfl⟩ := faultAt_of_step h ht
  obtain rfl := Option.some.inj hr
  cases fault with
  | unknownOpcode | badRegister => cases kind
  | fetch above =>
    have top : s.pc.toNat = 256 := by omega
    exact ⟨top, rfl, .inl ⟨top, rfl⟩⟩
  | operand hop reaches => exact ⟨rfl, rfl, .inr (.inl ⟨_, hop, rfl, reaches⟩)⟩
  | call lies above =>
    have inside : s.pc.toNat + 2 ≤ 256 := at_encode_end_le lies
    have place : s.pc.toNat = 254 := by omega
    exact ⟨by simp [place], rfl, .inr (.inr ⟨place, place ▸ opcode_of_at_encode lies, rfl⟩)⟩

/-! ### When an instruction faults -/

/-- An instruction is well formed exactly when no operand check fails. -/
theorem wf_iff_firstBad {i : Instr} : i.wf = true ↔ firstBad i.regOperands = none := by
  simp [Instr.wf, firstBad, Nat.lt_succ_iff]

/-- Settles O27: with its operands good, the one fault left to an instruction is CALL's own. -/
theorem onlyCallFaultsInHandler : Obligations.OnlyCallFaultsInHandler := by
  intro s t i lies good h ht
  rw [step_of_at_encode lies] at h
  obtain ⟨c, bad, -⟩ | ⟨a, rfl, above, -⟩ := (effect_of_exec h).faulted_cases lies.1 ht
  · cases (wf_iff_firstBad.1 good).symm.trans bad
  · exact ⟨above, _, rfl⟩

/-- Settles O54: a faulting step contradicts an instruction that completes (`onlyCallFaultsInHandler`); and where none completes, none
lies at `pc`, or its operand check fails, or it is a CALL whose return address is above 255. -/
theorem stepFaultsExactlyWhenNothingCompletes : Obligations.StepFaultsExactlyWhenNothingCompletes := by
  refine fun s hr => ⟨?faults, fun none => ?incomplete⟩
  case faults =>
    rintro ⟨t, h, ht⟩ ⟨i, lies, good, fits⟩
    obtain ⟨above, a, rfl⟩ := onlyCallFaultsInHandler s t i lies good h ht
    exact absurd (fits a rfl) (by omega)
  case incomplete =>
    obtain ⟨i, lies, hstep⟩ | fault := step_of_running hr
    case inr => exact fault
    cases bad : firstBad i.regOperands with
    | some c => exact ⟨_, hstep.trans (exec_of_firstBad s bad), rfl⟩
    | none =>
      obtain ⟨a, rfl, above⟩ : ∃ a, i = .call a ∧ 255 < s.pc.toNat + 2 := by
        by_contra fits
        exact none ⟨i, lies, wf_iff_firstBad.2 bad, fun a hi => Nat.not_lt.1 fun above => fits ⟨a, hi, above⟩⟩
      obtain ⟨r, rfl⟩ | high := regByte_cases a
      · exact ⟨_, hstep.trans (Effect.callAbove r above).exec_eq, rfl⟩
      · cases bad.symm.trans (firstBad_one high)

end Sys2Proof.Machine
end

section
/-! PRN, CMP, PUSH, POP, CALL and HLT (42_data_movement.md R95, 41_alu.md R91, 43_stack.md R96 and R97, 44_control_transfer.md R99 and
R104). PUSH and CALL share one operation, the byte stored below `sp`. -/

namespace Sys2Proof.Machine

open Sys2Proof.Claims

/-- Settles O2: on a register PRN is one `emit`, which writes `out` only. -/
theorem prnAppendsRegisterToOut : Obligations.PrnAppendsRegisterToOut :=
  ⟨fun _ a => step_of_at_encode (i := .prn a), fun a s => ⟨_, execPrn_regs a s, rfl, rfl, fun _ => rfl, rfl, rfl, rfl, rfl⟩,
    missingOperandFaults (m := .prn) rfl, badOperandFaults (build := .prn) (fun _ => rfl) (fun _ => rfl)⟩

/-- Settles O5: on registers CMP writes `compareFlags` of the two values, whose branches are the three cases. -/
theorem cmpWritesOneFlag : Obligations.CmpWritesOneFlag := by
  refine ⟨fun _ a b => step_of_at_encode (i := .cmp a b),
    fun a b s => ⟨_, execCmp_regs a b s, fun equal => ?equal, fun greater => ?greater, fun less => ?less,
      fun _ => rfl, rfl, rfl, rfl, rfl, rfl⟩,
    missingOperandFaults (m := .cmp) rfl, badOperandsFault (build := .cmp) (fun _ _ => rfl) (fun _ _ => rfl)⟩
  case equal => exact if_pos equal
  case greater => exact (if_neg greater.ne').trans (if_pos greater)
  case less => exact (if_neg less.ne).trans (if_neg less.not_gt)

/-- Settles O14: HLT writes the run-state only. -/
theorem hltHaltsInPlace : Obligations.HltHaltsInPlace :=
  ⟨fun _ => step_of_at_encode (i := .hlt), fun s => ⟨_, execHlt_eq s, rfl, rfl, fun _ => rfl, rfl, rfl, rfl, rfl⟩⟩

/-! ### The byte stored below `sp` -/

/-- What PUSH and CALL do to registers and memory: `sp` decremented, `v` stored at the new `sp`. -/
def State.storeBelowSp (s : State) (v : Byte) : State := s.decSp.memWrite s.decSp.sp v

section StoreBelowSp

variable (s : State) (v : Byte)

theorem State.storeBelowSp_readReg (r : Reg) :
    (s.storeBelowSp v).readReg r = if r = 7 then s.readReg 7 - 1 else s.readReg r := s.decSp_readReg r

theorem State.storeBelowSp_sp : (s.storeBelowSp v).readReg 7 = s.readReg 7 - 1 := s.decSp_sp

theorem State.storeBelowSp_mem : (s.storeBelowSp v).mem = s.mem.write (s.readReg 7 - 1).toNat v :=
  congrArg (fun sp : Byte => s.mem.write sp.toNat v) s.decSp_sp

theorem State.storeBelowSp_memRead (canonical : s.mem.wf = true) : (s.storeBelowSp v).memRead (s.readReg 7 - 1) = v := by
  rw [State.memRead, State.storeBelowSp_mem]
  exact Memory.read_write_same _ v canonical

theorem State.storeBelowSp_readReg_other {r : Reg} (other : r ≠ 7) : (s.storeBelowSp v).readReg r = s.readReg r := by
  rw [State.storeBelowSp_readReg, if_neg other]

theorem State.storeBelowSp_read_other {n : Nat} (other : n ≠ (s.readReg 7 - 1).toNat) :
    (s.storeBelowSp v).mem.read n = s.mem.read n := by
  rw [State.storeBelowSp_mem, Memory.read_write_other _ v other]

/-- The new `sp`, and what the store leaves unchanged. -/
theorem State.storeBelowSp_frame :
    (s.storeBelowSp v).readReg 7 = s.readReg 7 - 1 ∧ (∀ r, r ≠ 7 → (s.storeBelowSp v).readReg r = s.readReg r) ∧
    (∀ n, n ≠ (s.readReg 7 - 1).toNat → (s.storeBelowSp v).mem.read n = s.mem.read n) ∧ OnlyRegsMemAndPc s (s.storeBelowSp v) :=
  ⟨s.storeBelowSp_sp v, fun _ => s.storeBelowSp_readReg_other v, fun _ => s.storeBelowSp_read_other v, rfl, rfl, rfl, rfl⟩

end StoreBelowSp

/-- PUSH stores the register as it is after the decrement (43_stack.md R96). -/
theorem execPush_storeBelowSp (a : Reg) (s : State) : exec (.push (regByte a)) s =
    .next ((s.storeBelowSp (if a = 7 then s.readReg 7 - 1 else s.readReg a)).advance 2) := by
  rw [execPush_regs, State.decSp_readReg]
  rfl

/-- CALL stores its return address and jumps to the register as it is after the decrement (44_control_transfer.md R99). -/
theorem execCall_storeBelowSp (a : Reg) {s : State} (fits : s.pc.toNat + 2 ≤ 255) : exec (.call (regByte a)) s =
    .next ((s.storeBelowSp (narrow (s.pc.toNat + 2))).jump (if a = 7 then s.readReg 7 - 1 else s.readReg a)) := by
  rw [execCall_regs, if_neg (Nat.not_lt.2 fits), State.decSp_readReg]
  rfl

theorem narrow_toNat_of_le {n : Nat} (h : n ≤ 255) : (narrow n).toNat = n := by
  rw [narrow, BitVec.toNat_ofNat, Nat.mod_eq_of_lt (by omega)]

/-- Settles O7: PUSH is the store below `sp`, of the decremented `sp` itself for R7. -/
theorem pushStoresBelowSp : Obligations.PushStoresBelowSp := by
  refine ⟨fun _ a => step_of_at_encode (i := .push a), fun a s => ?_,
    missingOperandFaults (m := .push) rfl, badOperandFaults (build := .push) (fun _ => rfl) (fun _ => rfl)⟩
  obtain ⟨sp, registers, memory, rest⟩ := s.storeBelowSp_frame (if a = 7 then s.readReg 7 - 1 else s.readReg a)
  exact ⟨_, execPush_storeBelowSp a s, sp, registers, s.storeBelowSp_memRead _, memory, rfl, rest⟩

/-- Settles O9: a CALL whose return address is a byte is the store of it below `sp` and a jump; above 255 it is `raise`. -/
theorem callPushesReturnAddress : Obligations.CallPushesReturnAddress := by
  refine ⟨fun _ a => step_of_at_encode (i := .call a), fun a s fits => ?_, fun a s above => (Effect.callAbove a above).exec_eq,
    missingOperandFaults (m := .call) rfl, badOperandFaults (build := .call) (fun _ => rfl) (fun _ => rfl)⟩
  obtain ⟨sp, registers, memory, rest⟩ := s.storeBelowSp_frame (narrow (s.pc.toNat + 2))
  refine ⟨_, execCall_storeBelowSp a fits, sp, registers, fun canonical => ?_, memory,
    State.jump_pc_toNat _ _, rest⟩
  exact (congrArg BitVec.toNat (s.storeBelowSp_memRead _ canonical)).trans (narrow_toNat_of_le fits)

/-! ### POP -/

/-- The registers after POP: `sp` is incremented after the register is loaded (43_stack.md R97). -/
theorem execPop_readReg {a : Reg} {s t : State} (h : exec (.pop (regByte a)) s = .next t) (r : Reg) : t.readReg r =
    if r = 7 then (if a = 7 then s.memRead (s.readReg 7) else s.readReg 7) + 1
    else if r = a then s.memRead (s.readReg 7) else s.readReg r := by
  rw [execPop_regs] at h
  cases h
  rw [State.advance_readReg, State.incSp_readReg, State.readReg_writeReg]
  simp only [State.sp, Config.spIndex, State.readReg_writeReg, eq_comm (a := (7 : Reg))]

/-- Settles O8: the load and then the increment write the registers as `execPop_readReg` says, and no other field. -/
theorem popLoadsFromSp : Obligations.PopLoadsFromSp := by
  refine ⟨fun _ a => step_of_at_encode (i := .pop a), fun a s => ?_,
    missingOperandFaults (m := .pop) rfl, badOperandFaults (build := .pop) (fun _ => rfl) (fun _ => rfl)⟩
  have read := execPop_readReg (execPop_regs a s)
  refine ⟨_, execPop_regs a s, fun other => ⟨?loaded, ?sp⟩, fun isSp => ?loadedSp, fun r notDest notSp => ?frame,
    rfl, rfl, rfl, rfl, rfl, rfl⟩
  case loaded => rw [read, if_neg other, if_pos rfl]
  case sp => rw [read, if_pos rfl, if_neg other]
  case loadedSp => rw [read, if_pos rfl, if_pos isSp]
  case frame => rw [read, if_neg notSp, if_neg notDest]

end Sys2Proof.Machine
end

section
/-! Frames over all instructions: registers, memory and `out` change only where an instruction writes them, and memory is read only at
the top of the stack (10_state.md sections 1 and 5, 20_memory.md section 1). -/

namespace Sys2Proof.Machine

open Sys2Proof.Claims

/-- Settles O34: a write to another register than `r`, `sp` among them, leaves `r` alone, and the other rules of `Effect` write none. -/
theorem registersChangeOnlyAsDestination : Obligations.RegistersChangeOnlyAsDestination := by
  intro i s t r h notDest notPop notStack
  have notSp (hi : usesStack i) : r ≠ 7 := fun e => notStack e hi
  cases effect_of_exec h with
  | ldi a b => exact s.readReg_writeReg_other _ fun e => (notDest b).1 (e ▸ rfl)
  | add a b => exact s.readReg_writeReg_other _ fun e => (notDest (regByte b)).2.1 (e ▸ rfl)
  | mul a b => exact s.readReg_writeReg_other _ fun e => (notDest (regByte b)).2.2 (e ▸ rfl)
  | push a => exact (s.decSp_readReg r).trans (if_neg (notSp (.inl ⟨_, rfl⟩)))
  | call a => exact (s.decSp_readReg r).trans (if_neg (notSp (.inr (.inr (.inl ⟨_, rfl⟩)))))
  | pop a =>
    rw [State.advance_readReg, State.incSp_readReg, if_neg (notSp (.inr (.inl ⟨_, rfl⟩)))]
    exact s.readReg_writeReg_other _ fun e => notPop (e ▸ rfl)
  | ret => rw [State.incSp_readReg, if_neg (notSp (.inr (.inr (.inr rfl)))), State.jump_readReg]
  | _ => rfl

/-- Settles O35: ST is a write at the address in its register, PUSH and CALL are the store below `sp`, and the other rules of `Effect`
write no memory. -/
theorem memoryChangesOnlyWhereStored : Obligations.MemoryChangesOnlyWhereStored := by
  intro i s t n h notSt notBelowSp
  cases effect_of_exec h with
  | st a b => exact Memory.read_write_other s.mem _ (notSt a _ rfl)
  | push a => exact s.storeBelowSp_read_other _ (notBelowSp _ (.inl rfl))
  | call a => exact s.storeBelowSp_read_other _ (notBelowSp _ (.inr rfl))
  | _ => rfl

/-- Only POP and RET read memory, and only at `sp`: with another memory of that byte the effect is the same outside memory. -/
theorem Effect.with_mem {s t : State} {i : Instr} {m : Memory} (h : Effect s i t)
    (top : (∃ a, i = .pop a) ∨ i = .ret → m.read s.sp.toNat = s.memRead s.sp) :
    ∃ t', Effect { s with mem := m } i t' ∧ { t' with mem := t.mem } = t := by
  cases h with
  | badRegister bad => exact ⟨_, .badRegister bad, rfl⟩
  | ldi a b => exact ⟨_, .ldi a b, rfl⟩
  | prn a => exact ⟨_, .prn a, rfl⟩
  | add a b => exact ⟨_, .add a b, rfl⟩
  | mul a b => exact ⟨_, .mul a b, rfl⟩
  | cmp a b => exact ⟨_, .cmp a b, rfl⟩
  | st a b => exact ⟨_, .st a b, rfl⟩
  | push a => exact ⟨_, .push a, rfl⟩
  | pop a => exact ⟨_, .pop a, congrArg (fun v => (s.writeReg a v).incSp.advance 2) (top (.inl ⟨_, rfl⟩))⟩
  | call a fits => exact ⟨_, .call a fits, rfl⟩
  | callAbove a above => exact ⟨_, .callAbove a above, rfl⟩
  | ret => exact ⟨_, .ret, congrArg (fun v => (s.jump v).incSp) (top (.inr rfl))⟩
  | jmp a => exact ⟨_, .jmp a, rfl⟩
  | jeqTaken a equal => exact ⟨_, .jeqTaken a equal, rfl⟩
  | jeqNotTaken a unequal => exact ⟨_, .jeqNotTaken a unequal, rfl⟩
  | jneTaken a unequal => exact ⟨_, .jneTaken a unequal, rfl⟩
  | jneNotTaken a equal => exact ⟨_, .jneNotTaken a equal, rfl⟩
  | hlt => exact ⟨_, .hlt, rfl⟩

/-- Settles O36: the rules of `Effect` read memory only for the byte at `sp` in POP and RET. -/
theorem handlersReadOnlyTopOfStack : Obligations.HandlersReadOnlyTopOfStack := by
  intro i s t m h top
  obtain ⟨t', effect, eq⟩ := (effect_of_exec h).with_mem top
  exact ⟨t', effect.exec_eq, eq⟩

/-- Only PRN writes `out`, and it adds one value at the end (10_state.md R39). -/
theorem Effect.out_eq {s t : State} {i : Instr} (h : Effect s i t) :
    t.out = s.out ∨ ∃ a, i = .prn (regByte a) ∧ t.out = s.out ++ [s.readReg a] := by
  cases h with
  | prn a => exact .inr ⟨a, rfl, rfl⟩
  | _ => exact .inl rfl

/-- A step is the effect of the instruction at `pc`, or it raises a fault. -/
theorem step_effect_or_raise {s t : State} (h : step s = .next t) :
    s.runState = .running ∧ ((∃ i, At s (encode i) ∧ Effect s i t) ∨ ∃ k o n, t = s.raise k o n) := by
  obtain ⟨hr, ⟨i, rest, hd, hx⟩ | ⟨e, -, rfl⟩⟩ := step_cases h
  · exact ⟨hr, .inl ⟨i, at_encode_of_decode hr hd, effect_of_exec hx⟩⟩
  · exact ⟨hr, .inr (fetchFault_eq_raise s e)⟩

/-- Settles O37: a fault keeps `out`, and so does every instruction but a PRN, which lay at `pc`. -/
theorem outGrowsOnlyByPrn : Obligations.OutGrowsOnlyByPrn := by
  intro s t h
  obtain ⟨-, ⟨i, lies, effect⟩ | ⟨k, o, n, rfl⟩⟩ := step_effect_or_raise h
  · obtain same | ⟨a, rfl, grows⟩ := effect.out_eq
    · exact .inl same
    · exact .inr ⟨a, lies, grows⟩
  · exact .inl rfl

/-! ### The end of Running -/

/-- A step that ends Halted is a HLT at `pc`. -/
theorem step_halted {s t : State} (h : step s = .next t) (ht : t.runState = .halted) : At s (encode .hlt) ∧ t = s.halt := by
  obtain ⟨hr, ⟨i, lies, effect⟩ | ⟨k, o, n, rfl⟩⟩ := step_effect_or_raise h
  · obtain same | ⟨rfl, rfl⟩ | ⟨k, o, n, rfl⟩ := effect.runState_cases
    · cases hr.symm.trans (same.symm.trans ht)
    · exact ⟨lies, rfl⟩
    · cases ht
  · cases ht

/-- Settles O31: a step is taken in Running and a load in Idle, so reset and a start without effect are left; Halted is entered as
`step_halted` says. -/
theorem haltedAndFaultedAreTerminal : Obligations.HaltedAndFaultedAreTerminal := by
  refine ⟨fun e s t stopped h => ?terminal, fun s t h ht => ?halts⟩
  case terminal =>
    cases e with
    | step => simp [(step_cases h).1] at stopped
    | host a =>
      obtain ⟨rfl, -⟩ | ⟨p, -, idle, -⟩ | ⟨-, idle, -⟩ | ⟨rfl, -, rfl⟩ := hostAct_cases h
      · exact .inl rfl
      · simp [idle] at stopped
      · simp [idle] at stopped
      · exact .inr ⟨rfl, rfl⟩
  case halts =>
    obtain ⟨lies, rfl⟩ := step_halted h ht
    exact ⟨opcode_of_at_encode lies, rfl⟩

end Sys2Proof.Machine
end

section
/-! The program counter: a step advances it over its instruction, jumps inside memory, or leaves it (10_state.md section 2). -/

namespace Sys2Proof.Machine

open Sys2Proof.Claims

theorem State.jump_pc_le (s : State) (v : Byte) : (s.jump v).pc.toNat ≤ 255 :=
  (s.jump_pc_toNat v).trans_le (Nat.le_of_lt_succ v.isLt)

/-- An advance that ends at 256 at most does not wrap in 9 bits (10_state.md R25). -/
theorem State.advance_pc_toNat {s : State} {w : Nat} (fits : s.pc.toNat + w ≤ 256) : (s.advance w).pc.toNat = s.pc.toNat + w := by
  rw [State.advance_pc, BitVec.toNat_add, BitVec.toNat_ofNat]
  omega

/-- The three ways an instruction leaves `pc`: past itself, at a target byte, or as it was. -/
theorem Effect.pc_cases {s t : State} {i : Instr} (h : Effect s i t) :
    (fallsThrough i s ∧ t.pc = (s.advance (encode i).length).pc) ∨ (¬ fallsThrough i s ∧ t.pc.toNat ≤ 255) ∨
    (t.pc = s.pc ∧ (t.runState = .faulted ∨ i = .hlt)) := by
  cases h with
  | badRegister | callAbove => exact .inr (.inr ⟨rfl, .inl rfl⟩)
  | hlt => exact .inr (.inr ⟨rfl, .inr rfl⟩)
  | ldi | prn | add | mul | cmp | st | push | pop => exact .inl ⟨trivial, rfl⟩
  | jeqNotTaken a unequal => exact .inl ⟨unequal, rfl⟩
  | jneNotTaken a equal => exact .inl ⟨equal, rfl⟩
  | call | ret | jmp => exact .inr (.inl ⟨id, s.jump_pc_le _⟩)
  | jeqTaken a equal => exact .inr (.inl ⟨by simp [fallsThrough, equal], s.jump_pc_le _⟩)
  | jneTaken a unequal => exact .inr (.inl ⟨by simp [fallsThrough, unequal], s.jump_pc_le _⟩)

/-- An instruction that lies in memory and falls through leaves `pc` at the byte after it, 256 at most. -/
theorem advance_pc_of_at_encode {s : State} {i : Instr} (lies : At s (encode i)) :
    (s.advance (encode i).length).pc.toNat = s.pc.toNat + (encode i).length := State.advance_pc_toNat (at_encode_end_le lies)

/-- The three ways a step leaves `pc`: past an instruction that lay there, at a target byte, or as it was. -/
theorem step_pc_cases {s t : State} (h : step s = .next t) :
    (∃ i, At s (encode i) ∧ fallsThrough i s ∧ t.pc.toNat = s.pc.toNat + (encode i).length) ∨ t.pc.toNat ≤ 255 ∨ t.pc = s.pc := by
  obtain ⟨-, ⟨i, lies, effect⟩ | ⟨k, o, n, rfl⟩⟩ := step_effect_or_raise h
  · obtain ⟨falls, past⟩ | ⟨-, target⟩ | ⟨same, -⟩ := effect.pc_cases
    · exact .inl ⟨i, lies, falls, by rw [past, advance_pc_of_at_encode lies]⟩
    · exact .inr (.inl target)
    · exact .inr (.inr same)
  · exact .inr (.inr rfl)

/-- No step leads past 256 (10_state.md R25). -/
theorem step_pc_le {s t : State} (h : step s = .next t) (bound : s.pc.toNat ≤ 256) : t.pc.toNat ≤ 256 := by
  obtain ⟨i, lies, -, past⟩ | target | same := step_pc_cases h
  · exact past.trans_le (at_encode_end_le lies)
  · omega
  · rwa [same]

/-- Settles O38: of the three ways a step leaves `pc` (`step_pc_cases`) only the advance over the instruction reaches 256, and an
instruction that falls through and does not fault takes that way (`Effect.pc_cases`). -/
theorem programCounterReaches256OnlyByAdvance : Obligations.ProgramCounterReaches256OnlyByAdvance := by
  refine fun s t inside h => ⟨step_pc_le h (by omega), fun top => ?reaches, fun i lies falls noFault => ?advances⟩
  case reaches =>
    obtain ⟨i, lies, falls, past⟩ | target | same := step_pc_cases h
    · refine ⟨i, lies, past.symm.trans top, fun a => ⟨?_, ?_⟩, ?_, ?_⟩
      all_goals
        rintro rfl
        exact falls
    · omega
    · rw [same] at top
      omega
  case advances =>
    rw [step_of_at_encode lies] at h
    obtain ⟨-, past⟩ | ⟨jumps, -⟩ | ⟨-, faults | rfl⟩ := (effect_of_exec h).pc_cases
    · rw [past, advance_pc_of_at_encode lies]
    · exact absurd falls jumps
    · exact absurd faults noFault
    · exact falls.elim

end Sys2Proof.Machine
end

section
/-! The invariant: each of its four parts holds after reset and is kept by every step and every action of the host. -/

namespace Sys2Proof.Machine

open Sys2Proof.Claims

/-! ### Memory -/

/-- An instruction stores at most one byte. -/
theorem Effect.mem_cases {s t : State} {i : Instr} (h : Effect s i t) :
    t.mem = s.mem ∨ ∃ addr v : Byte, t.mem = s.mem.write addr.toNat v := by
  cases h with
  | st | push | call => exact .inr ⟨_, _, rfl⟩
  | _ => exact .inl rfl

theorem step_keeps_wf {s t : State} (h : step s = .next t) (canonical : s.mem.wf = true) : t.mem.wf = true := by
  obtain ⟨-, ⟨i, -, effect⟩ | ⟨k, o, n, rfl⟩⟩ := step_effect_or_raise h
  · obtain same | ⟨addr, v, stored⟩ := effect.mem_cases
    · rwa [same]
    · rw [stored]
      exact Memory.wf_write v addr.isLt canonical
  · exact canonical

/-! ### The flags -/

theorem onEvent_keeps_fl {e : Event} {s t : State} (h : onEvent e s = .next t)
    (fl : s.fl = 0x00#8 ∨ s.fl = 0x01#8 ∨ s.fl = 0x02#8 ∨ s.fl = 0x04#8) :
    t.fl = 0x00#8 ∨ t.fl = 0x01#8 ∨ t.fl = 0x02#8 ∨ t.fl = 0x04#8 := by
  obtain same | cleared | ⟨p, q, compared⟩ := onEvent_fl h
  · rwa [same]
  · exact .inl cleared
  · rw [compared]
    exact .inr ((compareFlags_cases p q).imp And.right (Or.imp And.right And.right))

/-! ### The record -/

/-- Outside Faulted the record is sound exactly when there is none (10_state.md R37). -/
theorem recordOk_iff_of_not_faulted {s : State} (active : s.runState ≠ .faulted) : s.recordOk = true ↔ s.faultRec = none := by
  unfold State.recordOk
  cases s.faultRec <;> simp [active]

/-- Every fault of a step leaves a sound record (60_exceptions.md R106 to R109). -/
theorem FaultAt.recordOk_raise {s : State} {k : FaultKind} {o : Option Byte} {n : Nat} (h : FaultAt s k o n)
    (bound : s.pc.toNat ≤ 256) : (s.raise k o n).recordOk = true := by
  cases h with
  | fetch above =>
    have top : s.pc.toNat = 256 := by omega
    simp [State.recordOk, FaultRecord.sound, top]
  | unknownOpcode hir unassigned =>
    have inside := (State.byteAt?_eq_some.1 hir).1
    simp [State.recordOk, FaultRecord.sound, unassigned, inside]
  | operand hop =>
    have inside := (State.byteAt?_eq_some.1 hop).1
    simp [State.recordOk, FaultRecord.sound, inside]
  | @badRegister i c lies bad =>
    have inside := (State.byteAt?_eq_some.1 (opcode_of_at_encode lies)).1
    have high : 7 < c.toNat := by simpa using List.find?_some bad
    simp [State.recordOk, FaultRecord.sound, inside, Nat.succ_le_iff, high, c.isLt]
  | call lies above =>
    have assigned : dispatch 0x50#8 = some .call := dispatch_opcode .call
    have inside : s.pc.toNat + 2 ≤ 256 := at_encode_end_le lies
    have place : s.pc.toNat = 254 := by omega
    simp [State.recordOk, FaultRecord.sound, assigned, place]

/-- An instruction that does not fault leaves the record alone. -/
theorem Effect.faultRec_eq {s t : State} {i : Instr} (h : Effect s i t) (noFault : t.runState ≠ .faulted) :
    t.faultRec = s.faultRec := by
  cases h with
  | badRegister | callAbove => exact absurd rfl noFault
  | _ => rfl

theorem step_keeps_recordOk {s t : State} (h : step s = .next t) (bound : s.pc.toNat ≤ 256) (record : s.recordOk = true) :
    t.recordOk = true := by
  by_cases faults : t.runState = .faulted
  · obtain ⟨k, o, n, fault, rfl⟩ := faultAt_of_step h faults
    exact fault.recordOk_raise bound
  · obtain ⟨hr, ⟨i, -, effect⟩ | ⟨k, o, n, rfl⟩⟩ := step_effect_or_raise h
    · have active : s.runState ≠ .faulted := by simp [hr]
      rw [recordOk_iff_of_not_faulted faults, effect.faultRec_eq faults]
      exact (recordOk_iff_of_not_faulted active).1 record
    · exact absurd rfl faults

/-! ### The whole invariant -/

/-- Settles O39: each of the four parts is computed from the reset values. -/
theorem resetMeetsInvariant : Obligations.ResetMeetsInvariant := ⟨rfl, by decide, .inl rfl, rfl⟩

/-- Settles O40: each of the four parts is kept. -/
theorem stepKeepsInvariant : Obligations.StepKeepsInvariant := by
  rintro s t ⟨canonical, bound, fl, record⟩ h
  exact ⟨step_keeps_wf h canonical, step_pc_le h bound, onEvent_keeps_fl (e := .step) h fl, step_keeps_recordOk h bound record⟩

/-- Settles O53: a step by O40; reset by O39; a load writes bytes into memory and start moves Idle to Running, both without a record. -/
theorem eventKeepsInvariant : Obligations.EventKeepsInvariant := by
  intro e s t inv h
  cases e with
  | step => exact stepKeepsInvariant s t inv h
  | host a =>
    have ⟨canonical, bound, fl, record⟩ := inv
    obtain ⟨-, rfl⟩ | ⟨p, -, -, rfl⟩ | ⟨-, idle, rfl⟩ | ⟨-, -, rfl⟩ := hostAct_cases h
    · exact resetMeetsInvariant
    · exact ⟨Memory.wf_writeBytes 0 p canonical, bound, fl, record⟩
    · have none := (recordOk_iff_of_not_faulted (by simp [idle])).1 record
      exact ⟨canonical, bound, fl, (recordOk_iff_of_not_faulted (by simp)).2 none⟩
    · exact inv

/-- Settles O41: by induction on how the state is reached, from O39 and O53. -/
theorem reachableStatesMeetInvariant : Obligations.ReachableStatesMeetInvariant := by
  intro s h
  induction h with
  | reset => exact resetMeetsInvariant
  | event e _ he inv => exact eventKeepsInvariant e _ _ inv he

end Sys2Proof.Machine
end

section
/-! Memory as data and as the fetch sees it, and the round trips over the stack (20_memory.md sections 1 and 7, 43_stack.md,
44_control_transfer.md). -/

namespace Sys2Proof.Machine

/-! ### The canonical form -/

theorem Memory.read_head (a : Nat) (v : Byte) (m : Memory) : Memory.read ((a, v) :: m) a = v := if_pos rfl

theorem Memory.read_tail {a n : Nat} (v : Byte) (m : Memory) (h : a ≠ n) : Memory.read ((a, v) :: m) n = m.read n := if_neg h

/-- No address below the first listed one holds anything but the reset value. -/
theorem Memory.head_le_of_read {b n : Nat} {w : Byte} {m : Memory} (canonical : Memory.wf ((b, w) :: m) = true)
    (h : Memory.read ((b, w) :: m) n ≠ 0x00#8) : b ≤ n := by
  obtain ⟨-, -, above, -⟩ := (Memory.wf_cons_iff b w m).1 canonical
  by_contra below
  refine h (Memory.read_of_unlisted _ n fun c hc => ?_)
  obtain rfl | hc := List.mem_cons.1 hc
  · exact fun e => below (Nat.le_of_eq e)
  · have := above c hc
    omega

/-- Settles O43: by induction on both lists. The first listed address of each is at most the other's, since it reads as more than the
reset value; with equal first cells the rests read alike, at the first address as unlisted. -/
theorem memoriesThatReadAlikeAreEqual : Obligations.MemoriesThatReadAlikeAreEqual := by
  intro m
  induction m with
  | nil =>
    rintro (_ | ⟨⟨b, w⟩, rest'⟩) - canonical' alike
    · rfl
    · obtain ⟨hb, hw, -, -⟩ := (Memory.wf_cons_iff b w rest').1 canonical'
      exact absurd ((Memory.read_head b w rest').symm.trans (alike b hb).symm) hw
  | cons c rest ih =>
    obtain ⟨a, v⟩ := c
    intro m' canonical canonical' alike
    obtain ⟨ha, hv, above, hrest⟩ := (Memory.wf_cons_iff a v rest).1 canonical
    have atHead : m'.read a = v := by rw [← alike a ha, Memory.read_head]
    obtain _ | ⟨⟨b, w⟩, rest'⟩ := m'
    · exact absurd atHead.symm hv
    obtain ⟨hb, hw, above', hrest'⟩ := (Memory.wf_cons_iff b w rest').1 canonical'
    have ba : b ≤ a := Memory.head_le_of_read canonical' (by rwa [atHead])
    have ab : a ≤ b := Memory.head_le_of_read canonical (by rwa [alike b hb, Memory.read_head])
    obtain rfl : a = b := Nat.le_antisymm ab ba
    obtain rfl : w = v := (Memory.read_head a w rest').symm.trans atHead
    rw [ih rest' hrest hrest' fun n hn => ?_]
    by_cases first : a = n
    · subst first
      rw [Memory.read_of_unlisted rest a fun c hc => (above c hc).ne', Memory.read_of_unlisted rest' a fun c hc => (above' c hc).ne']
    · rw [← Memory.read_tail w rest first, alike n hn, Memory.read_tail w rest' first]

/-! ### The fetch -/

/-- The first byte fetched is the one at `pc`. -/
theorem window_head? (s : State) : s.window.head? = s.byteAt? s.pc.toNat := by
  by_cases inside : s.pc.toNat < 256
  · rw [window_cons inside, byteAt?_of_lt inside]
    rfl
  · rw [window_above (by omega), byteAt?_of_ge (by omega)]
    rfl

theorem byteAt?_congr {s t : State} {n : Nat} (h : t.mem.read n = s.mem.read n) : t.byteAt? n = s.byteAt? n := by
  rw [State.byteAt?, State.byteAt?, h]

/-- Settles O44: the window at `x[a]` begins with the byte there, which is the one written; the write changes no other. -/
theorem storeIsSeenByFetch : Obligations.StoreIsSeenByFetch := by
  intro a b s t canonical h
  rw [execSt_regs] at h
  cases h
  refine ⟨(window_head? _).trans ?fetched, fun n other => byteAt?_congr (Memory.read_write_other s.mem _ other)⟩
  case fetched =>
    have place := s.jump_pc_toNat (s.readReg a)
    rw [State.jump_pc] at place
    rw [State.byteAt?_eq_some, place]
    exact ⟨(s.readReg a).isLt, Memory.read_write_same _ _ canonical⟩

/-! ### Round trips over the stack -/

/-- With `sp` and the byte at it as a store below `sp` left them, that byte is the one stored. -/
theorem top_of_storeBelowSp {s u : State} {v : Byte} (canonical : s.mem.wf = true)
    (sameSp : u.readReg 7 = (s.storeBelowSp v).readReg 7)
    (sameTop : u.memRead ((s.storeBelowSp v).readReg 7) = (s.storeBelowSp v).memRead ((s.storeBelowSp v).readReg 7)) :
    u.readReg 7 = s.readReg 7 - 1 ∧ u.memRead (u.readReg 7) = v := by
  rw [State.storeBelowSp_sp] at sameSp sameTop
  rw [sameSp, sameTop, State.storeBelowSp_memRead s v canonical]
  exact ⟨rfl, rfl⟩

/-- Settles O45: POP finds the pushed byte at the decremented `sp`; `execPop_readReg` says where it goes in each case. -/
theorem pushThenPop : Obligations.PushThenPop := by
  intro a b s t u v canonical hpush sameSp sameTop hpop
  rw [execPush_storeBelowSp] at hpush
  cases hpush
  simp only [State.advance_readReg, State.advance_memRead] at sameSp sameTop
  obtain ⟨sp, top⟩ := top_of_storeBelowSp canonical sameSp sameTop
  have read := execPop_readReg hpop
  rw [top, sp] at read
  refine ⟨?same, ?different, ?pushSp, ?popSp⟩
  case same =>
    rintro rfl
    by_cases isSp : a = 7
    · subst isSp
      simp [read]
    · simp [read, isSp]
  case different =>
    intro _ aGeneral bGeneral
    simp [read, aGeneral, bGeneral]
  case pushSp =>
    intro aSp bGeneral
    simp [read, aSp, bGeneral]
  case popSp =>
    intro aGeneral bSp
    simp [read, aGeneral, bSp]

/-- Settles O46: RET finds the return address at the decremented `sp`, jumps to it and increments `sp`. -/
theorem callThenRet : Obligations.CallThenRet := by
  intro a s t u v canonical fits hcall sameSp sameTop hret
  rw [execCall_storeBelowSp a fits] at hcall
  cases hcall
  rw [execRet_eq] at hret
  cases hret
  simp only [State.jump_readReg, State.jump_memRead] at sameSp sameTop
  obtain ⟨sp, top⟩ := top_of_storeBelowSp canonical sameSp sameTop
  constructor
  · rw [State.incSp_pc, State.jump_pc_toNat, ← narrow_toNat_of_le fits]
    exact congrArg BitVec.toNat top
  · rw [State.incSp_readReg, if_pos rfl, State.jump_sp]
    exact (congrArg (· + 1) sp).trans (BitVec.sub_add_cancel _ _)

end Sys2Proof.Machine
end

section
/-! Reset and program load (70_reset_and_hazards.md sections 1 and 2). -/

namespace Sys2Proof.Machine

open Sys2Proof.Claims

/-- Settles O47: the values stand in `State.reset`, and an empty list of cells reads as 0x00 everywhere. -/
theorem resetLeavesGivenValues : Obligations.ResetLeavesGivenValues :=
  ⟨fun _ => rfl, by decide, rfl, rfl, rfl, fun _ => byteAt?_of_lt, rfl, rfl, rfl⟩

/-- Load in Idle of a program that fits (70_reset_and_hazards.md R125). -/
theorem hostAct_load {p : List Byte} {s : State} (idle : s.runState = .idle) (fits : p.length ≤ 256) :
    hostAct (.load p) s = .next { s with mem := s.mem.writeBytes 0 p } := by
  rw [hostAct, State.load, if_neg (not_not.2 idle), if_neg (show ¬ p.length > Config.memSize from Nat.not_lt.2 fits)]

/-- What the bytes of memory are after a load: the program from 0 on, and past it what was there. -/
theorem byteAt?_of_loaded {p : List Byte} {s t : State} (fits : p.length ≤ 256) (canonical : s.mem.wf = true)
    (loaded : t.mem = s.mem.writeBytes 0 p) :
    (∀ k b, p[k]? = some b → t.byteAt? k = some b) ∧ (∀ n, p.length ≤ n → t.byteAt? n = s.byteAt? n) := by
  obtain ⟨inside, past⟩ := Memory.read_writeBytes 0 p canonical (by omega)
  refine ⟨fun k b hk => ?_, fun n hn => byteAt?_congr ?_⟩
  · obtain ⟨inProgram, -⟩ := List.getElem?_eq_some_iff.1 hk
    have read := inside k b hk
    rw [Nat.zero_add] at read
    exact State.byteAt?_eq_some.2 ⟨by omega, loaded ▸ read⟩
  · rw [loaded]
    exact past n (by omega)

/-- Settles O48: in Idle a program that fits is written from 0 on (`byteAt?_of_loaded`); the two refusals are load's own branches. -/
theorem loadPlacesProgramAtZero : Obligations.LoadPlacesProgramAtZero := by
  refine ⟨fun p s idle fits canonical => ?loads, fun p fits => ?afterReset, fun p s active => ?notIdle, fun p s idle long => ?tooLong⟩
  case loads =>
    obtain ⟨program, past⟩ := byteAt?_of_loaded (t := { s with mem := s.mem.writeBytes 0 p }) fits canonical rfl
    exact ⟨_, hostAct_load idle fits, program, past, rfl⟩
  case afterReset =>
    obtain ⟨-, past⟩ := byteAt?_of_loaded (s := .reset) (t := { State.reset with mem := State.reset.mem.writeBytes 0 p }) fits rfl rfl
    exact ⟨_, hostAct_load rfl fits, fun n hn top => (past n hn).trans (byteAt?_of_lt top)⟩
  case notIdle => rw [hostAct, State.load, if_pos active]
  case tooLong => rw [hostAct, State.load, if_neg (not_not.2 idle), if_pos (show p.length > Config.memSize from long)]

/-- Settles O50: the loaded bytes begin at 0, where `pc` is after reset, with the encoding of `i`. -/
theorem firstStepRunsFirstInstruction : Obligations.FirstStepRunsFirstInstruction := by
  intro i rest s t fits hload hstart
  rw [hostAct_load rfl fits] at hload
  cases hload
  rw [hostAct, State.start_of_idle rfl] at hstart
  have started := Host.Outcome.next.inj hstart
  obtain ⟨program, -⟩ := byteAt?_of_loaded (s := .reset) (t := t) fits rfl (started ▸ rfl)
  subst started
  refine step_of_at_encode ⟨rfl, fun k b hk => ?_⟩
  obtain ⟨inside, -⟩ := List.getElem?_eq_some_iff.1 hk
  have placed := program k b (by rw [List.getElem?_append_left inside, hk])
  rwa [← Nat.zero_add k] at placed

end Sys2Proof.Machine
end

section
/-! Runs: how one continues, and how it ends (40_execution_cycle.md section 2). -/

namespace Sys2Proof.Machine

open Sys2Proof.Claims

/-- A run of `n + 1` steps is a step and a run of `n`. -/
theorem runsTo_succ {n : Nat} {s t : State} : RunsTo (n + 1) s t ↔ ∃ u, step s = .next u ∧ RunsTo n u t := by
  unfold RunsTo
  rw [runFor]
  cases step s <;> simp

/-- No run is longer than one that has stopped. -/
theorem RunsTo.le_of_stopped {n m : Nat} {s t u : State} (h : RunsTo n s t) (stopped : t.runState ≠ .running) (h' : RunsTo m s u) :
    m ≤ n := by
  induction n generalizing m s with
  | zero =>
    cases h
    cases m with
    | zero => exact Nat.le_refl 0
    | succ m =>
      obtain ⟨v, taken, -⟩ := runsTo_succ.1 h'
      exact absurd (step_cases taken).1 stopped
  | succ n ih =>
    cases m with
    | zero => exact Nat.zero_le _
    | succ m =>
      obtain ⟨v, taken, run⟩ := runsTo_succ.1 h
      obtain ⟨w, taken', run'⟩ := runsTo_succ.1 h'
      cases taken.symm.trans taken'
      exact Nat.succ_le_succ (ih run run')

/-- A run that stops, stops in one state. -/
theorem RunsTo.eq_of_stopped {n m : Nat} {s t u : State} (h : RunsTo n s t) (ht : t.runState ≠ .running) (h' : RunsTo m s u)
    (hu : u.runState ≠ .running) : t = u := by
  obtain rfl : n = m := Nat.le_antisymm (h'.le_of_stopped hu h) (h.le_of_stopped ht h')
  exact Host.Outcome.next.inj (h.symm.trans h')

/-- A run that stops does not hang: it has no further step. -/
theorem RunsTo.not_hangs {n : Nat} {s t : State} (h : RunsTo n s t) (stopped : t.runState ≠ .running) : ¬ Hangs s := by
  intro hangs
  obtain ⟨u, longer, -⟩ := hangs (n + 1)
  exact absurd (h.le_of_stopped stopped longer) (Nat.not_succ_le_self n)

/-- From a Running state `n` steps are taken and the core is still Running, unless the run ends. -/
theorem running_after_or_ends {s : State} (hr : s.runState = .running) (n : Nat) :
    (∃ t, RunsTo n s t ∧ t.runState = .running) ∨ (∃ t, EndsHalted s t) ∨ ∃ t, EndsFaulted s t := by
  induction n generalizing s with
  | zero => exact .inl ⟨s, rfl, hr⟩
  | succ n ih =>
    obtain ⟨u, taken⟩ := step_next_of_running hr
    have onward {k : Nat} {t : State} (run : RunsTo k u t) : RunsTo (k + 1) s t := runsTo_succ.2 ⟨u, taken, run⟩
    cases hu : u.runState with
    | idle => exact absurd hu (step_runState_ne_idle taken)
    | halted => exact .inr (.inl ⟨u, 1, onward rfl, hu⟩)
    | faulted => exact .inr (.inr ⟨u, 1, onward rfl, hu⟩)
    | running =>
      obtain ⟨t, run, ht⟩ | ⟨t, k, run, ht⟩ | ⟨t, k, run, ht⟩ := ih hu
      · exact .inl ⟨t, onward run, ht⟩
      · exact .inr (.inl ⟨t, k + 1, onward run, ht⟩)
      · exact .inr (.inr ⟨t, k + 1, onward run, ht⟩)

/-- Settles O51: a run that does not end goes on for any number of steps; one that ends has no step after its end, and one end. -/
theorem runEndsInOneOfThreeWays : Obligations.RunEndsInOneOfThreeWays := by
  have stopped {t : State} {r : RunState} (ht : t.runState = r) (hr : r ≠ .running) : t.runState ≠ .running := ht ▸ hr
  have halted {t : State} (ht : t.runState = .halted) := stopped ht (by decide)
  have faulted {t : State} (ht : t.runState = .faulted) := stopped ht (by decide)
  intro s hr
  refine ⟨?oneOf, ?haltedFaulted, ?haltedHangs, ?faultedHangs, ?haltedUnique, ?faultedUnique⟩
  case oneOf =>
    by_cases ends : (∃ t, EndsHalted s t) ∨ ∃ t, EndsFaulted s t
    · exact ends.imp_right .inl
    · exact .inr (.inr fun n => (running_after_or_ends hr n).resolve_right ends)
  case haltedFaulted =>
    rintro t u ⟨⟨n, run, ht⟩, m, run', hu⟩
    obtain rfl := run.eq_of_stopped (halted ht) run' (faulted hu)
    cases ht.symm.trans hu
  case haltedHangs =>
    rintro t ⟨⟨n, run, ht⟩, hangs⟩
    exact run.not_hangs (halted ht) hangs
  case faultedHangs =>
    rintro t ⟨⟨n, run, ht⟩, hangs⟩
    exact run.not_hangs (faulted ht) hangs
  case haltedUnique =>
    rintro t u ⟨n, run, ht⟩ ⟨m, run', hu⟩
    exact run.eq_of_stopped (halted ht) run' (halted hu)
  case faultedUnique =>
    rintro t u ⟨n, run, ht⟩ ⟨m, run', hu⟩
    exact run.eq_of_stopped (faulted ht) run' (faulted hu)

/-- A run that leaves its first state has a last step. -/
theorem RunsTo.last_step {n : Nat} {s t : State} (h : RunsTo n s t) : t = s ∨ ∃ u, step u = .next t := by
  induction n generalizing s with
  | zero => exact .inl (Host.Outcome.next.inj h).symm
  | succ n ih =>
    obtain ⟨u, taken, run⟩ := runsTo_succ.1 h
    obtain rfl | last := ih run
    · exact .inr ⟨s, taken⟩
    · exact .inr last

/-- Settles O52: the last step is a HLT, which leaves `pc` and memory (`step_halted`), or a fault, which leaves them too (O29). -/
theorem finalStateNamesStop : Obligations.FinalStateNamesStop := by
  refine fun s t hr => ⟨?halts, ?faults⟩
  case halts =>
    rintro ⟨n, run, ht⟩
    obtain rfl | ⟨u, last⟩ := run.last_step
    · cases hr.symm.trans ht
    · obtain ⟨lies, rfl⟩ := step_halted last ht
      exact opcode_of_at_encode lies
  case faults =>
    rintro ⟨n, run, ht⟩
    obtain rfl | ⟨u, last⟩ := run.last_step
    · cases hr.symm.trans ht
    · obtain ⟨r, rfl, fpc, opcode, -, -⟩ := faultsArePrecise u t last ht
      exact ⟨r, rfl, fpc, opcode⟩

end Sys2Proof.Machine
end
